-- ==== Sys2Proof/Word.lean ====
section
/-! DEFINITION. The words of AQ-SCF: every width is fixed by spec/00_scope.md rule R6. -/

namespace Sys2Proof

/-- One input character, 8 bits (R6 "byte width"). -/
abbrev Byte := BitVec 8

/-- The value of one character of the alphabet, 6 bits (R6 "symbol width"). -/
abbrev Symbol := BitVec 6

/-- The 12-bit code `v` that a pair of characters spells (R6 "code width"). -/
abbrev Code := BitVec 12

/-- The 16-bit pattern of one decoded sample, as a FIFO entry and `rd_data` hold it (R12, R35). -/
abbrev Sample := BitVec 16

end Sys2Proof
end

