-- ==== Sys2Proof/Config.lean ====
section
/-! DEFINITION. What an implementation fixes (`DEPTH`, `ARB`) and the free values: every `unspecified` of the spec
is one of the opaque constants below, applied to the number of the draw. No proof can learn what they are. -/

namespace Sys2Proof

/-- The parameter `ARB` (00_scope.md R7): the serial order given to a producer operation and a consumer operation
that a clocked realisation receives in the same clock (60_exceptions.md R68). -/
inductive Arb where
  | readFirst
  | writeFirst
  | either
deriving DecidableEq, Repr

/-- `DEPTH - 1`. The spec gives `DEPTH` no value (00_scope.md R7, decision D3: `OPEN`, no default), so none can be
proved here (log 1). -/
opaque Config.spareDepth : Nat

/-- The parameter `DEPTH`, the capacity of the FIFO in samples: any natural number of at least 1 (R7). It is what
`State.reset` carries; a statement about every state is about every `DEPTH` (log 1). DESIGN CHOICE, safe. -/
def Config.depth : Nat := Config.spareDepth + 1

/-- `lo_byte` after the `RST` that made draw `n` (10_state.md R20, log 4). -/
opaque Config.unspecifiedByte : Nat → Byte

/-- `mem[i]`, at index `i`, after the `RST` that made draw `n` (10_state.md R20, log 5). -/
opaque Config.unspecifiedEntry : Nat → Nat → Sample

/-- `rd_data` of a response with `rd_valid = 0` that is draw `n` (41_fifo.md R57, R58, log 3). -/
opaque Config.unspecifiedData : Nat → Sample

/-- Whether draw `n` puts the `POP` first, under `ARB = either` (60_exceptions.md R68, log 2). -/
opaque Config.readGoesFirst : Nat → Bool

end Sys2Proof
end

