-- ==== Sys2Proof/Syntax.lean ====
section
/-! DEFINITION. The six operations of AQ-SCF, its agents and ports, and what an agent can present on a port. -/

namespace Sys2Proof

/-- The operations: one constructor for each row of spec/opcode_table.json (30_encoding.md R40). -/
inductive Instr where
  /-- `WNOP`, the absence of a write-port operation (40_codec.md R51). -/
  | wnop
  /-- `PUTB d`, one byte of the current buffer (40_codec.md R49). -/
  | putb (d : Byte)
  /-- `ENDB`, the end of the current buffer (40_codec.md R50). -/
  | endb
  /-- `RNOP`, the absence of a read-port operation (41_fifo.md R58). -/
  | rnop
  /-- `POP`, an attempt to take the oldest sample (41_fifo.md R57). -/
  | pop
  /-- `RST`, the host's reset (42_control.md R63). -/
  | rst
deriving DecidableEq, Repr

/-- The three agents (00_scope.md R5). -/
inductive Agent where
  | producer
  | consumer
  | host
deriving DecidableEq, Repr

/-- The three ports, one for each command format: W, R and X (30_encoding.md R37, R38, R39). -/
inductive Port where
  | write
  | read
  | reset
deriving DecidableEq, Repr

/-- A command word on one port: format W has 10 bits, formats R and X have 1 bit each (30_encoding.md R42). -/
inductive Command where
  | write (w : BitVec 10)
  | read (w : BitVec 1)
  | reset (w : BitVec 1)
deriving DecidableEq, Repr

/-- The port a command word is presented on. -/
def Command.port : Command → Port
  | .write _ => .write
  | .read _ => .read
  | .reset _ => .reset

/-- What arrives at the block: one command on one port (the transaction level, 00_scope.md R4), or all three ports
sampled in one clock, the vector of 30_encoding.md R42. -/
inductive Input where
  | command (c : Command)
  | clock (v : BitVec 12)
deriving DecidableEq, Repr

/-- The agent whose operation it is (column "agent" of spec/opcode_table.json). -/
def Instr.agent : Instr → Agent
  | .wnop => .producer
  | .putb _ => .producer
  | .endb => .producer
  | .rnop => .consumer
  | .pop => .consumer
  | .rst => .host

/-- The only port an agent reaches (60_exceptions.md R70). -/
def Agent.port : Agent → Port
  | .producer => .write
  | .consumer => .read
  | .host => .reset

end Sys2Proof
end

