-- ==== Sys2Proof/WellFormed.lean ====
section
/-! DEFINITION. What may be presented: each agent issues its own operations, on its own port (00_scope.md R5,
60_exceptions.md R70). An operation has no ill-formed operand: all 256 bytes are legal (30_encoding.md R41). -/

namespace Sys2Proof

/-- The agent may issue the operation (00_scope.md R5). -/
def Agent.mayIssue : Agent → Instr → Bool
  | .producer, .putb _ => true
  | .producer, .endb => true
  | .producer, .wnop => true
  | .consumer, .pop => true
  | .consumer, .rnop => true
  | .host, .rst => true
  | _, _ => false

/-- The agent reaches the port the command word is on ("enforced by wiring", 60_exceptions.md R70). -/
def Agent.mayPresent (a : Agent) (c : Command) : Bool := a.port = c.port

/-- The well-formed operations. Every operand is a byte and every byte is legal (30_encoding.md R41), so what is left
to check is that some agent may issue the operation: the one the opcode table names. -/
def Instr.wellFormed (i : Instr) : Bool := i.agent.mayIssue i

end Sys2Proof
end

