-- ==== Sys2Proof/Decode.lean ====
section
/-! DEFINITION. The command formats (30_encoding.md R37 to R42): the fields of a word, the decoder of each port, total on
every word and every list of bytes, the opcode table with its masks, and the encoder. -/

namespace Sys2Proof

/-! ## Fields -/

/-- `wr_valid`, bit 9 of format W (R37). -/
def wrValid (w : BitVec 10) : Bool := w.getLsbD 9

/-- `wr_end`, bit 8 of format W (R37). -/
def wrEnd (w : BitVec 10) : Bool := w.getLsbD 8

/-- `wr_data`, bits 7 to 0 of format W (R37). -/
def wrData (w : BitVec 10) : Byte := w.extractLsb' 0 8

/-- `rd_req`, bit 0 of format R (R38). -/
def rdReq (w : BitVec 1) : Bool := w.getLsbD 0

/-- `rst`, bit 0 of format X (R39). -/
def rstBit (w : BitVec 1) : Bool := w.getLsbD 0

/-- The format X word in a clock vector: `rst` is bit 11 (R42). -/
def clockReset (v : BitVec 12) : BitVec 1 := v.extractLsb' 11 1

/-- The format R word in a clock vector: `rd_req` is bit 10 (R42). -/
def clockRead (v : BitVec 12) : BitVec 1 := v.extractLsb' 10 1

/-- The format W word in a clock vector: bits 9 to 0 (R42). -/
def clockWrite (v : BitVec 12) : BitVec 10 := v.extractLsb' 0 10

/-! ## Decoding -/

/-- Why a word or a list of bytes names no operation. -/
inductive DecodeError where
  /-- The format X word 0, "the absence of a host operation" (R40). -/
  | noHostOperation
  /-- Not as many bytes as the port's command takes. -/
  | wrongLength
deriving DecidableEq, Repr

/-- Format W: every one of the 1024 words is an operation (R40, R41). -/
def decodeWrite (w : BitVec 10) : Instr :=
  if wrValid w then (if wrEnd w then .endb else .putb (wrData w)) else .wnop

/-- Format R (R40). -/
def decodeRead (w : BitVec 1) : Instr := if rdReq w then .pop else .rnop

/-- Format X (R40): 1 is `RST`, 0 is no host operation. -/
def decodeReset (w : BitVec 1) : Except DecodeError Instr :=
  if rstBit w then .ok .rst else .error .noHostOperation

/-- The operation a command word stands for. The port says the format: "The three formats are never mixed on one
port" (R42). -/
def decode : Command → Except DecodeError Instr
  | .write w => .ok (decodeWrite w)
  | .read w => .ok (decodeRead w)
  | .reset w => decodeReset w

/-- A command word from the bytes that carry it, least significant first: two bytes for format W, one for formats R
and X. The bits above the port's width select nothing, being outside every mask of R40 (log 10). -/
def commandOfBytes : Port → List Byte → Except DecodeError Command
  | .write, [b0, b1] => .ok (.write ((b1 ++ b0).extractLsb' 0 10))
  | .read, [b0] => .ok (.read (b0.extractLsb' 0 1))
  | .reset, [b0] => .ok (.reset (b0.extractLsb' 0 1))
  | _, _ => .error .wrongLength

/-- The operation in the bytes of a command on a port: total, refusing by name. -/
def decodeBytes (p : Port) (bs : List Byte) : Except DecodeError Instr :=
  match commandOfBytes p bs with
  | .ok c => decode c
  | .error e => .error e

/-! ## The opcode table -/

/-- A row of the opcode map (R40): the words `w` of its port with `w &&& mask = value`, read as numbers of 10 bits. -/
structure OpcodeRow where
  port : Port
  mask : BitVec 10
  value : BitVec 10
deriving DecidableEq, Repr

/-- The opcode map of R40, in the order of spec/opcode_table.json. -/
def opcodeRows : List OpcodeRow :=
  [⟨.write, 0x200, 0x000⟩, ⟨.write, 0x300, 0x200⟩, ⟨.write, 0x300, 0x300⟩,
   ⟨.read, 0x1, 0x0⟩, ⟨.read, 0x1, 0x1⟩, ⟨.reset, 0x1, 0x1⟩]

/-- The row of an operation. -/
def Instr.opcodeRow : Instr → OpcodeRow
  | .wnop => ⟨.write, 0x200, 0x000⟩
  | .putb _ => ⟨.write, 0x300, 0x200⟩
  | .endb => ⟨.write, 0x300, 0x300⟩
  | .rnop => ⟨.read, 0x1, 0x0⟩
  | .pop => ⟨.read, 0x1, 0x1⟩
  | .rst => ⟨.reset, 0x1, 0x1⟩

/-- The bits of a command word as a number of 10 bits. -/
def Command.bits : Command → BitVec 10
  | .write w => w
  | .read w => w.setWidth 10
  | .reset w => w.setWidth 10

/-- "A command word `w` selects a row iff `(w & mask) = match`" (R40). -/
def OpcodeRow.selects (r : OpcodeRow) (c : Command) : Bool :=
  r.port = c.port && c.bits &&& r.mask == r.value

/-! ## Encoding -/

/-- The canonical word of an operation (R40). -/
def encode : Instr → Command
  | .wnop => .write 0x000
  | .putb d => .write (0x200 ||| d.setWidth 10)
  | .endb => .write 0x300
  | .rnop => .read 0
  | .pop => .read 1
  | .rst => .reset 1

/-- The bytes that carry a command word, least significant first. -/
def Command.bytes : Command → List Byte
  | .write w => [w.extractLsb' 0 8, (w.extractLsb' 8 2).setWidth 8]
  | .read w => [w.setWidth 8]
  | .reset w => [w.setWidth 8]

/-! ## The host's two questions about the table (log 10) -/

/-- The port the host's table word is read on: a row of two bytes is of format W. A row of one byte is of format R or
X, which the number alone does not tell apart; the model reads it as format R. DESIGN CHOICE, safe (log 10). -/
def tablePort (nbits : Nat) : Port := if nbits ≤ 8 then .read else .write

/-- The bytes of the table word, least significant first. -/
def tableBytes (nbits w : Nat) : List Byte :=
  if nbits ≤ 8 then [BitVec.ofNat 8 w] else [BitVec.ofNat 8 w, BitVec.ofNat 8 (w / 256)]

/-- The operation the decoder reads from a table word of `nbits` bits. No row has 0 bits or more than 16. -/
def decodeTableWord (nbits w : Nat) : Option Instr :=
  if nbits = 0 ∨ 16 < nbits then none else (decodeBytes (tablePort nbits) (tableBytes nbits w)).toOption

/-- The input an agent presents for the same table word. Where there is none it is the format X word 0, which is no
operation. -/
def tableInput (nbits w : Nat) : Input :=
  if nbits = 0 ∨ 16 < nbits then .command (.reset 0)
  else match commandOfBytes (tablePort nbits) (tableBytes nbits w) with
  | .ok c => .command c
  | .error _ => .command (.reset 0)

end Sys2Proof
end

