-- ==== Sys2Proof/Machine/State.lean ====
section
/-! DEFINITION. The state of AQ-SCF as plain data, why a step can stop, and the state after reset. -/

namespace Sys2Proof.Machine

/-- One entry of the FIFO's storage: its index and the 16-bit pattern it holds. An entry is the smallest thing an
access reaches; it has no bytes (20_memory.md R23, R24; log 5). -/
abbrev Cell := Nat × Sample

/-- The FIFO's storage `mem` (10_state.md R12): the entries written since the last reset, indices strictly rising
(`Memory.wf`). An entry not listed has not been written since; what it holds is `State.entry`. -/
abbrev Memory := List Cell

/-- Whether the operation presented in a step was accepted (00_scope.md section 6, Outcomes of an operation). -/
inductive Taken where
  /-- No operation was presented. -/
  | nothing
  /-- The step happened. -/
  | accepted
  /-- Not accepted: nothing changed and the agent may present the same operation again. -/
  | held
deriving DecidableEq, Repr

/-- The response of a read-port operation, `(rd_valid, rd_data)` (30_encoding.md R38). -/
structure ReadReply where
  rdValid : Bool
  rdData : Sample
deriving DecidableEq, Repr

/-- What the ports answered in the last step. It is no state of the block: "the response `(rd_valid, rd_data)`, which
does not persist after its step" (10_state.md R17); every step writes it and none reads it (log 7). -/
structure Reply where
  taken : Taken
  read : Option ReadReply
deriving DecidableEq, Repr

/-- The whole state. The first six fields are the block's (10_state.md R10); then the parameters, carried as data that
no operation writes; then whether a reset has happened; then the model's own fields. -/
structure State where
  /-- `lo_byte`: the first byte of the pair being assembled, meaningful only while `pend` (R11). -/
  loByte : Byte
  /-- `pend`: a first byte is held and the second is awaited (R11). -/
  pend : Bool
  /-- `mem`: the FIFO's storage (R12). -/
  mem : Memory
  /-- `wp`: the index of the entry the next `Push` writes (R13). -/
  wp : Nat
  /-- `rp`: the index of the entry the next `Pop` reads (R13). -/
  rp : Nat
  /-- `count`: the number of samples in the FIFO (R13). -/
  count : Nat
  /-- `DEPTH`, the capacity (00_scope.md R7; log 1). -/
  depth : Nat
  /-- `ARB`, the order of two operations of one clock (00_scope.md R7; log 2). -/
  arb : Arb
  /-- An `RST` has been issued since power was applied (10_state.md R21; log 9). -/
  rstDone : Bool
  /-- The model's own: what the agents present, oldest first: the schedule of 00_scope.md R9 (log 6). -/
  inputs : List Input
  /-- The model's own: what the last step answered (log 7). -/
  reply : Reply
  /-- The model's own: how many `unspecified` values have been drawn (log 3). -/
  draws : Nat
  /-- The model's own: the draw the last `RST` made for `mem` (log 5). -/
  memDraw : Nat
deriving DecidableEq, Repr

/-- The faults: none. "The block raises no exception, trap or fault, synchronous or otherwise"; "its fault type is
empty" (60_exceptions.md R65). Safe: the spec says so. -/
inductive Fault where
deriving DecidableEq, Repr

/-- The refusals. -/
inductive Refusal where
  /-- Raised by the arm of an operation that has no meaning in the model yet. Safe: nothing can be proved of it. -/
  | notModelled (mnemonic : String)
  /-- Raised by every operation but `RST` before the first `RST` after power is applied: "a model *refuses* such an
  operation" (10_state.md R21). Safe: the spec gives the operation no meaning there. -/
  | beforeFirstReset
deriving DecidableEq, Repr

/-- The machine right after reset (10_state.md R20): `count`, `pend`, `wp`, `rp` at 0, `lo_byte` and every entry of `mem`
`unspecified` (draw 0; logs 3, 4, 5). `DEPTH` is the configured one (log 1), `ARB` is `either`, the value of R7.
DESIGN CHOICE, unsafe (log 4): one draw for every run. -/
def State.reset : State where
  loByte := Config.unspecifiedByte 0
  pend := false
  mem := []
  wp := 0
  rp := 0
  count := 0
  depth := Config.depth
  arb := .either
  rstDone := true
  inputs := []
  reply := ⟨.nothing, none⟩
  draws := 1
  memDraw := 0

end Sys2Proof.Machine
end

