-- ==== Sys2Proof/Machine/Operands.lean ====
section
/-! DEFINITION. The values the operations work on: the byte operand, and a sample as an integer, as a 16-bit pattern and
as two bytes. -/

namespace Sys2Proof.Machine

/-- The only operand form: `wr_data`, "used as it stands, an unsigned 8-bit value with no extension, scaling or
shifting" (30_encoding.md R37). -/
def byteOperand (d : Byte) : Byte := d

/-- `bits16(s)`, the pattern of a signed sample: `s mod 65536` (00_scope.md section 6). Two's complement (log 12). -/
def bits16 (s : Int) : Sample := BitVec.ofInt 16 s

/-- `int16(p)`, the signed value of a pattern: `p` if `p < 32768`, else `p - 65536` (00_scope.md section 6). -/
def int16 (p : Sample) : Int := if p.toNat < 32768 then (p.toNat : Int) else (p.toNat : Int) - 65536

/-- The byte-serial form of a sample pattern, least significant byte first (20_memory.md R24, 30_encoding.md R36). -/
def sampleBytes (p : Sample) : List Byte := [p.extractLsb' 0 8, p.extractLsb' 8 8]

/-- The byte-serial form of a list of samples, "their byte pairs one after another" (30_encoding.md R36). -/
def streamBytes (xs : List Int) : List Byte := xs.flatMap fun s => sampleBytes (bits16 s)

end Sys2Proof.Machine
end

