-- ==== Sys2Proof/Machine/Codec.lean ====
section
/-! DEFINITION. The three functions of the sample codec (40_codec.md sections 1 to 3): pure, total, with no error result. -/

namespace Sys2Proof.Machine

/-- `decode_char` (40_codec.md R45): the symbol of a byte, 0 for a byte outside the alphabet. The byte bounds are the
ASCII codes of 30_encoding.md R33 (log 11). -/
def decodeChar (b : Byte) : Symbol :=
  if 0x41 ≤ b.toNat ∧ b.toNat ≤ 0x5A then BitVec.ofNat 6 (b.toNat - 0x41)
  else if 0x61 ≤ b.toNat ∧ b.toNat ≤ 0x7A then BitVec.ofNat 6 (b.toNat - 0x61 + 26)
  else if 0x30 ≤ b.toNat ∧ b.toNat ≤ 0x39 then BitVec.ofNat 6 (b.toNat - 0x30 + 52)
  else if b = 0x2B then 62
  else if b = 0x2F then 63
  else 0

/-- The bytes of the 64 characters of the alphabet (30_encoding.md R32, R33). -/
def inAlphabet (b : Byte) : Bool :=
  (0x41 ≤ b.toNat && b.toNat ≤ 0x5A) || (0x61 ≤ b.toNat && b.toNat ≤ 0x7A) || (0x30 ≤ b.toNat && b.toNat ≤ 0x39)
    || b == 0x2B || b == 0x2F

/-- The code `v` of a sample code (30_encoding.md R34): the first byte of the pair is `low` (log 13). -/
def pairCode (low high : Byte) : Code :=
  ((decodeChar high).setWidth 12 <<< 6) ||| (decodeChar low).setWidth 12

/-- The sample of a code, `(v - 2048) * 16`, in mathematical integers (40_codec.md R46, 30_encoding.md R35). -/
def codeSample (v : Code) : Int := ((v.toNat : Int) - 2048) * 16

/-- `decode_sample` (40_codec.md R46). -/
def decodeSample (low high : Byte) : Int := codeSample (pairCode low high)

/-- `decode_buffer` (40_codec.md R48): pairs from the start of the buffer, an unpaired last byte dropped. -/
def decodeBuffer : List Byte → List Int
  | low :: high :: rest => decodeSample low high :: decodeBuffer rest
  | _ => []

end Sys2Proof.Machine
end

