-- ==== Sys2Proof/Machine/Ops.lean ====
section
/-! DEFINITION. The named operations over the FIFO's storage and the state. Each says once what it changes; the meanings
are built from them. The block takes no exception and returns from none (60_exceptions.md R65, R69), so there is no
operation for either; the one refusal of the spec is `afterFirstReset`. -/

namespace Sys2Proof.Machine

/-! ## Storage -/

/-- The canonical form: indices strictly rising. An entry that is listed has been written since the last reset; there
is no value an unlisted one could be equal to (log 5). -/
def Memory.wf : Memory → Bool
  | [] => true
  | [_] => true
  | c :: d :: rest => c.1 < d.1 && Memory.wf (d :: rest)

/-- The entry at an index, if it has been written since the last reset: `MemRead(i, 2)` (00_scope.md section 6). -/
def Memory.read : Memory → Nat → Option Sample
  | [], _ => none
  | (j, x) :: rest, i => if i = j then some x else Memory.read rest i

/-- `MemWrite(i, 2, v)`: `mem[i] <- v` (00_scope.md section 6), keeping the canonical form. -/
def Memory.write : Memory → Nat → Sample → Memory
  | [], i, v => [(i, v)]
  | (j, x) :: rest, i, v =>
    if i < j then (i, v) :: (j, x) :: rest
    else if i = j then (i, v) :: rest
    else (j, x) :: Memory.write rest i v

/-- What entry `i` holds: the value last written, or, if it has not been written since the last `RST`, the
`unspecified` value that `RST` left there (10_state.md R20; log 5). -/
def State.entry (s : State) (i : Nat) : Sample :=
  (s.mem.read i).getD (Config.unspecifiedEntry s.memDraw i)

/-- The successor of an index: "They advance by one, modulo `DEPTH`" (10_state.md R13). -/
def State.nextIndex (s : State) (i : Nat) : Nat := (i + 1) % s.depth

/-- The index of the `k`-th oldest sample, `(rp + k) mod DEPTH` (10_state.md R15). -/
def State.windowIndex (s : State) (k : Nat) : Nat := (s.rp + k) % s.depth

/-- The contents `q` of the FIFO, oldest first (10_state.md R15). -/
def State.contents (s : State) : List Int :=
  (List.range s.count).map fun k => int16 (s.entry (s.windowIndex k))

/-! ## Changes of the state -/

/-- The step's answer (log 7). -/
def State.answer (s : State) (r : Reply) : State := { s with reply := r }

/-- What the agents present from now on (log 6). -/
def State.withInputs (s : State) (l : List Input) : State := { s with inputs := l }

/-- An `unspecified` value has been drawn (log 3). -/
def State.drawn (s : State) : State := { s with draws := s.draws + 1 }

/-- The first byte of a pair is kept: `lo_byte <- d`, `pend <- 1` (40_codec.md R49). -/
def State.keepByte (s : State) (d : Byte) : State := { s with loByte := d, pend := true }

/-- `pend <- 0` (40_codec.md R49, R50). -/
def State.clearPend (s : State) : State := { s with pend := false }

/-- `Push(x)` (41_fifo.md R55). Its precondition `count < DEPTH` is its caller's. -/
def State.push (s : State) (x : Int) : State :=
  { s with mem := s.mem.write s.wp (bits16 x), wp := s.nextIndex s.wp, count := s.count + 1 }

/-- The result of `Pop()`: `int16(mem[rp])` (41_fifo.md R56). -/
def State.oldest (s : State) : Int := int16 (s.entry s.rp)

/-- What `Pop()` writes: `rp` and `count` (41_fifo.md R56). Its precondition `count > 0` is its caller's. -/
def State.dropOldest (s : State) : State :=
  { s with rp := s.nextIndex s.rp, count := s.count - 1 }

/-- What `RST` writes (42_control.md R63): `lo_byte` and every entry become the `unspecified` values of one draw. -/
def State.cleared (s : State) : State :=
  { s with
    count := 0, wp := 0, rp := 0, pend := false
    loByte := Config.unspecifiedByte s.draws
    mem := [], memDraw := s.draws, draws := s.draws + 1
    rstDone := true }

/-! ## Answers -/

/-- The operation was accepted and has no response. -/
def Reply.accepted : Reply := ⟨.accepted, none⟩

/-- The operation was not accepted. -/
def Reply.held : Reply := ⟨.held, none⟩

/-- No operation was presented. -/
def Reply.nothing : Reply := ⟨.nothing, none⟩

/-- `rd_valid = 1` with the pattern of the sample `x` (41_fifo.md R57). -/
def Reply.sample (x : Int) : Reply := ⟨.accepted, some ⟨true, bits16 x⟩⟩

/-- `rd_valid = 0` with `rd_data` `unspecified`, draw `n` (41_fifo.md R57, R58). -/
def Reply.noSample (n : Nat) : Reply := ⟨.accepted, some ⟨false, Config.unspecifiedData n⟩⟩

/-- A read-port operation that returns no sample: no state of the block changes, and `rd_data` is a fresh draw
(41_fifo.md R57, R58). -/
def State.answerNoSample (s : State) : State := (s.answer (Reply.noSample s.draws)).drawn

/-- The next state of an operation, refused before the first `RST` (10_state.md R21; log 9). -/
def afterFirstReset (s t : State) : Host.Outcome State Fault Refusal :=
  if s.rstDone then .next t else .refused .beforeFirstReset

end Sys2Proof.Machine
end

