-- ==== Sys2Proof/Machine/Clock.lean ====
section
/-! DEFINITION. A clocked realisation: the 12-bit vector that samples all three ports (30_encoding.md R42) and the zero to
two commands it becomes (60_exceptions.md R68). -/

namespace Sys2Proof.Machine

/-- The write-port command of a clock, none if `wr_valid = 0` (R68). -/
def clockWriteInput (v : BitVec 12) : List Input :=
  if wrValid (clockWrite v) then [.command (.write (clockWrite v))] else []

/-- The read-port command of a clock, none if `rd_req = 0` (R68). -/
def clockReadInput (v : BitVec 12) : List Input :=
  if rdReq (clockRead v) then [.command (.read (clockRead v))] else []

/-- Whether the read-port command of a clock comes first: what `ARB` says, and under `either` a draw (R68; log 2). -/
def State.readIsFirst (s : State) : Bool :=
  match s.arb with
  | .readFirst => true
  | .writeFirst => false
  | .either => Config.readGoesFirst s.draws

/-- The commands of a clock with `rst = 0`, in the order of their steps (R68, case 2). -/
def State.clockInputs (s : State) (v : BitVec 12) : List Input :=
  if s.readIsFirst then clockReadInput v ++ clockWriteInput v else clockWriteInput v ++ clockReadInput v

/-- What the other ports are answered in a clock with `rst = 1` (R68, case 1): "the write-port command is not accepted"
and "a `POP` is answered `rd_valid = 0` without any state being read". -/
def State.turnedAway (s : State) (v : BitVec 12) : Reply :=
  ⟨if wrValid (clockWrite v) then .held else .nothing,
    if rdReq (clockRead v) then some ⟨false, Config.unspecifiedData s.draws⟩ else none⟩

/-- A clock is sampled: its commands go before everything presented later, so that nothing comes between its steps
(R68; log 8). No state of the block changes. -/
def State.sampleClock (s : State) (v : BitVec 12) : State :=
  if rstBit (clockReset v) then
    ((s.withInputs (.command (.reset 1) :: s.inputs)).answer (s.turnedAway v)).drawn
  else ((s.withInputs (s.clockInputs v ++ s.inputs)).answer Reply.nothing).drawn

end Sys2Proof.Machine
end

