-- ==== Sys2Proof/Machine/Flags.lean ====
section
/-! DEFINITION. The five status outputs, each a pure function of the state (10_state.md R16). The block has no flags
register and no condition codes. -/

namespace Sys2Proof.Machine

/-- `empty`: 1 iff `count = 0`. -/
def State.empty (s : State) : Bool := s.count == 0

/-- `full`: 1 iff `count = DEPTH`. -/
def State.full (s : State) : Bool := s.count == s.depth

/-- `level`: `count`. -/
def State.level (s : State) : Nat := s.count

/-- `pend_o`: `pend`. -/
def State.pendO (s : State) : Bool := s.pend

/-- `wr_ready`: 0 iff `pend = 1` and `count = DEPTH`. -/
def State.wrReady (s : State) : Bool := !(s.pend && s.count == s.depth)

end Sys2Proof.Machine
end

