-- ==== Sys2Proof/Machine/Control.lean ====
section
/-! DEFINITION. The host's operation `RST` (42_control.md R63). -/

namespace Sys2Proof.Machine

/-- `RST` (42_control.md R63): accepted in every state, "including the unspecified state before the first reset". -/
def execRst (s : State) : Host.Outcome State Fault Refusal :=
  .next (s.cleared.answer Reply.accepted)

end Sys2Proof.Machine
end

