-- ==== Sys2Proof/Machine/Read.lean ====
section
/-! DEFINITION. The read-port operations `RNOP` and `POP` (41_fifo.md section 2). -/

namespace Sys2Proof.Machine

/-- What a `POP` does (41_fifo.md R57): the oldest sample, or no sample and no change on an empty FIFO. -/
def State.takeSample (s : State) : State :=
  if s.count = 0 then s.answerNoSample
  else s.dropOldest.answer (Reply.sample s.oldest)

/-- `RNOP` (41_fifo.md R58): accepted, changes nothing, `rd_valid = 0`. -/
def execRnop (s : State) : Host.Outcome State Fault Refusal :=
  afterFirstReset s s.answerNoSample

/-- `POP` (41_fifo.md R57). -/
def execPop (s : State) : Host.Outcome State Fault Refusal :=
  afterFirstReset s s.takeSample

end Sys2Proof.Machine
end

