-- ==== Sys2Proof/Machine/Write.lean ====
section
/-! DEFINITION. The write-port operations `WNOP`, `PUTB`, `ENDB` (40_codec.md section 4). -/

namespace Sys2Proof.Machine

/-- What a `PUTB` does with its byte (40_codec.md R49): held while `wr_ready = 0` (log 14); kept if it is the first of a
pair; decoded with the kept byte and pushed if it is the second. -/
def State.takeByte (s : State) (d : Byte) : State :=
  if s.pend && s.count == s.depth then s.answer Reply.held
  else if s.pend then ((s.push (decodeSample s.loByte d)).clearPend).answer Reply.accepted
  else (s.keepByte d).answer Reply.accepted

/-- `WNOP` (40_codec.md R51): accepted, changes nothing. -/
def execWnop (s : State) : Host.Outcome State Fault Refusal :=
  afterFirstReset s (s.answer Reply.accepted)

/-- `PUTB d` (40_codec.md R49). -/
def execPutb (d : Byte) (s : State) : Host.Outcome State Fault Refusal :=
  afterFirstReset s (s.takeByte (byteOperand d))

/-- `ENDB` (40_codec.md R50): accepted whatever `wr_ready` shows; a held first byte is forgotten. -/
def execEndb (s : State) : Host.Outcome State Fault Refusal :=
  afterFirstReset s (s.clearPend.answer Reply.accepted)

end Sys2Proof.Machine
end

