-- ==== Sys2Proof/Machine/Dispatch.lean ====
section
/-! DEFINITION. One arm for each operation of spec/opcode_table.json. -/

namespace Sys2Proof.Machine

def exec (i : Instr) (s : State) : Host.Outcome State Fault Refusal :=
  match i with
  | .wnop => Sys2Proof.Machine.execWnop s
  | .putb d => Sys2Proof.Machine.execPutb d s
  | .endb => Sys2Proof.Machine.execEndb s
  | .rnop => Sys2Proof.Machine.execRnop s
  | .pop => Sys2Proof.Machine.execPop s
  | .rst => Sys2Proof.Machine.execRst s

end Sys2Proof.Machine
end

