-- ==== Sys2Proof/Machine/Step.lean ====
section
/-! DEFINITION. One step: the oldest thing presented is taken from the schedule and its operation runs. -/

namespace Sys2Proof.Machine

/-- One step. There is no program counter and no fetch (10_state.md R18): the next operation is what an agent presents
next. A command is decoded and its operation runs on the state without it; a format X word 0 is no operation; a clock
vector is turned into its commands; with nothing presented nothing happens (logs 6, 8). -/
def step (s : State) : Host.Outcome State Fault Refusal :=
  match s.inputs with
  | [] => .next (s.answer Reply.nothing)
  | .clock v :: rest => .next ((s.withInputs rest).sampleClock v)
  | .command c :: rest =>
    match decode c with
    | .ok i => exec i (s.withInputs rest)
    | .error _ => .next ((s.withInputs rest).answer Reply.nothing)

/-- The state with the operation of a table word presented before everything else, so that the next step runs it. -/
def State.withFetchWord (s : State) (nbits w : Nat) : State :=
  s.withInputs (tableInput nbits w :: s.inputs)

end Sys2Proof.Machine
end

