-- ==== Sys2Proof/Machine/Schedule.lean ====
section
/-! DEFINITION. Schedules of operations (00_scope.md R9), the four pseudo-operations of 30_encoding.md R44, and a line
of a program gone through among the steps of the other agents, a held operation presented again. -/

namespace Sys2Proof.Machine

/-- A schedule run in its order, one step for each operation, stopping at a fault or refusal (00_scope.md R9). -/
def runOps : List Instr → State → Host.Outcome State Fault Refusal
  | [], s => .next s
  | i :: rest, s =>
    match exec i s with
    | .next t => runOps rest t
    | .fault f => .fault f
    | .refused r => .refused r

/-- A schedule as the agents present it, each operation by its canonical word (30_encoding.md R40). -/
def presented (ops : List Instr) : List Input := ops.map fun i => .command (encode i)

/-- What a line of a program can ask for: an operation (30_encoding.md R43) or a pseudo-operation (R44). -/
inductive Source where
  | op (i : Instr)
  | puts (bytes : List Byte)
  | line (bytes : List Byte)
  | popn (n : Nat)
  | fill (n : Nat)
deriving DecidableEq, Repr

/-- `PUTS` (R44): the bytes in order, "of accepted operations". -/
def putsOps (bytes : List Byte) : List Instr := bytes.map .putb

/-- `LINE` (R44): one `decode_buffer` call. -/
def lineOps (bytes : List Byte) : List Instr := putsOps bytes ++ [.endb]

/-- `POPN n` (R44). -/
def popnOps (n : Nat) : List Instr := List.replicate n .pop

/-- The sample an answer delivers, if it is a response with `rd_valid = 1` (41_fifo.md R57). -/
def Reply.delivered (r : Reply) : List Sample :=
  match r.read with
  | some x => if x.rdValid then [x.rdData] else []
  | none => []

/-- `FILL n` (R44): "`POP` repeated until one returns `rd_valid = 0` or `n` have succeeded, whichever is first", with the
samples delivered. -/
def fillSlots : Nat → State → Host.Outcome (State × List Sample) Fault Refusal
  | 0, s => .next (s, [])
  | n + 1, s =>
    match exec .pop s with
    | .next t =>
      match t.reply.delivered with
      | [] => .next (t, [])
      | x :: _ =>
        match fillSlots n t with
        | .next (u, xs) => .next (u, x :: xs)
        | .fault f => .fault f
        | .refused r => .refused r
    | .fault f => .fault f
    | .refused r => .refused r

/-! ## A line presented among the steps of the other agents -/

/-- Whose step is next while an agent goes through a line: its own, or an operation another agent issues meanwhile
(00_scope.md R5: any agent may take the next step at any time). -/
inductive Turn where
  | own
  | other (i : Instr)
deriving DecidableEq, Repr

/-- The expansion of a line (R44), as operations still to be accepted. `FILL n` has at most `n` of them. -/
def Source.ops : Source → List Instr
  | .op i => [i]
  | .puts bytes => putsOps bytes
  | .line bytes => lineOps bytes
  | .popn n => popnOps n
  | .fill n => popnOps n

/-- The operation a turn presents while `todo` is left of the line, if there is one. -/
def Turn.operation : Turn → List Instr → Option Instr
  | .own, todo => todo.head?
  | .other i, _ => some i

/-- What is left of a line once a turn has been answered (R44): an operation that "meets a hold is presented again until
accepted", and `FILL` ends at the first `rd_valid = 0`. -/
def Source.left (src : Source) (turn : Turn) (todo : List Instr) (r : Reply) : List Instr :=
  match turn with
  | .other _ => todo
  | .own =>
    if r.taken = .held then todo
    else
      match src with
      | .fill _ => if r.delivered = [] then [] else todo.tail
      | _ => todo.tail

/-- The rest of a line gone through in the given turns: the state at their end, and what has still to be accepted. An own
turn presents the first operation left, and once nothing is left it passes. -/
def Source.runFrom (src : Source) : List Turn → List Instr → State → Host.Outcome (State × List Instr) Fault Refusal
  | [], todo, s => .next (s, todo)
  | turn :: turns, todo, s =>
    match turn.operation todo with
    | none => Source.runFrom src turns todo s
    | some i =>
      match exec i s with
      | .next t => Source.runFrom src turns (src.left turn todo t.reply) t
      | .fault f => .fault f
      | .refused r => .refused r

/-- A line gone through in the given turns (R43, R44). It is done when nothing is left; how many turns a hold takes is
for the other agents to say (60_exceptions.md R72). -/
def Source.run (src : Source) (turns : List Turn) (s : State) : Host.Outcome (State × List Instr) Fault Refusal :=
  src.runFrom turns src.ops s

/-- The schedule that the rest of a line makes in the given turns: every operation in the order it was presented, a held
one each time. -/
def Source.scheduleFrom (src : Source) : List Turn → List Instr → State → List Instr
  | [], _, _ => []
  | turn :: turns, todo, s =>
    match turn.operation todo with
    | none => Source.scheduleFrom src turns todo s
    | some i =>
      match exec i s with
      | .next t => i :: Source.scheduleFrom src turns (src.left turn todo t.reply) t
      | _ => [i]

/-- The schedule that a line makes in the given turns. -/
def Source.schedule (src : Source) (turns : List Turn) (s : State) : List Instr := src.scheduleFrom turns src.ops s

end Sys2Proof.Machine
end

