-- ==== Sys2Proof/Machine/Assembler.lean ====
section
/-! DEFINITION. The assembler syntax of 30_encoding.md R43 and R44: one line of text to one operation or
pseudo-operation with its expected response. Text is a list of characters (log 18). -/

namespace Sys2Proof.Machine

/-- Why a line is no line of the syntax. -/
inductive AsmError where
  /-- A character that is not ASCII. -/
  | notAscii
  /-- A quotation that does not close, or a quote in a wrong place. -/
  | badQuote
  /-- A backslash escape other than the two of R43. -/
  | badEscape
  /-- A first word that is no mnemonic, or operands the mnemonic does not take. -/
  | badOperation
  /-- A `<byte>` or a number that is none, or a byte outside `0..255`. -/
  | badOperand
  /-- An annotation that is none of R43's. -/
  | badAnnotation
deriving DecidableEq, Repr

/-- The annotation of an expected response (R43); no part of the program. -/
inductive Expected where
  | valid (p : Nat)
  | none
  | hold
deriving DecidableEq, Repr

/-! ## Tokens -/

inductive Token where
  | word (cs : List Char)
  | byte (b : Byte)
  | text (bs : List Byte)
deriving DecidableEq, Repr

/-- Where the reader of a line stands. Words and texts are held newest first. -/
inductive LexMode where
  | blank
  | word (acc : List Char)
  | quote
  | quoteEscape
  | quoteEnd (b : Byte)
  | text (acc : List Byte)
  | textEscape (acc : List Byte)
  | comment
deriving DecidableEq, Repr

/-- The byte of a character, "its ASCII code by rule R33". -/
def charByte (c : Char) : Except AsmError Byte :=
  if c.toNat < 128 then .ok (BitVec.ofNat 8 c.toNat) else .error .notAscii

/-- The escapes of R43: `\n` is 0x0A, `\r` is 0x0D. -/
def escapeByte (c : Char) : Except AsmError Byte :=
  if c = 'n' then .ok 0x0A else if c = 'r' then .ok 0x0D else .error .badEscape

/-- One character outside words and quotations. -/
def lexBlank (c : Char) : LexMode :=
  if c = ' ' then .blank
  else if c = '\t' then .blank
  else if c = ';' then .comment
  else if c = '\'' then .quote
  else if c = '"' then .text []
  else .word [c]

/-- One character of a line: the next mode, and the tokens that end here. The text of `PUTS` and `LINE` ends at the first
double quote, and a double quote cannot be written in it, a point R44 leaves open; a semicolon inside single or double
quotes is a character and starts no comment, a point R43 leaves open. DESIGN CHOICE, safe (log 18). -/
def lexChar (m : LexMode) (c : Char) : Except AsmError (LexMode × List Token) :=
  match m with
  | .blank => .ok (lexBlank c, [])
  | .word acc =>
    if c = ' ' ∨ c = '\t' ∨ c = ';' then .ok (lexBlank c, [.word acc.reverse])
    else if c = '\'' ∨ c = '"' then .error .badQuote
    else .ok (.word (c :: acc), [])
  | .quote => if c = '\\' then .ok (.quoteEscape, []) else (charByte c).map fun b => (.quoteEnd b, [])
  | .quoteEscape =>
    if c = '\'' then .ok (.blank, [.byte 0x5C]) else (escapeByte c).map fun b => (.quoteEnd b, [])
  | .quoteEnd b => if c = '\'' then .ok (.blank, [.byte b]) else .error .badQuote
  | .text acc =>
    if c = '"' then .ok (.blank, [.text acc.reverse])
    else if c = '\\' then .ok (.textEscape acc, [])
    else (charByte c).map fun b => (.text (b :: acc), [])
  | .textEscape acc => (escapeByte c).map fun b => (.text (b :: acc), [])
  | .comment => .ok (.comment, [])

/-- What the end of a line leaves. -/
def lexEnd : LexMode → Except AsmError (List Token)
  | .blank => .ok []
  | .comment => .ok []
  | .word acc => .ok [.word acc.reverse]
  | _ => .error .badQuote

/-- The tokens of the rest of a line. -/
def lexFrom (m : LexMode) : List Char → Except AsmError (List Token)
  | [] => lexEnd m
  | c :: cs =>
    match lexChar m c with
    | .error e => .error e
    | .ok (m', out) => (lexFrom m' cs).map fun more => out ++ more

/-! ## Numbers -/

/-- The value of a digit in base 16. -/
def hexDigit (c : Char) : Option Nat :=
  if '0' ≤ c ∧ c ≤ '9' then some (c.toNat - 48)
  else if 'A' ≤ c ∧ c ≤ 'F' then some (c.toNat - 55)
  else if 'a' ≤ c ∧ c ≤ 'f' then some (c.toNat - 87)
  else none

/-- The number that digits of a base spell, after what `acc` spells already. -/
def digitsFrom (base acc : Nat) : List Char → Option Nat
  | [] => some acc
  | c :: cs =>
    match hexDigit c with
    | some d => if d < base then digitsFrom base (acc * base + d) cs else none
    | none => none

/-- A decimal number. -/
def decimal (cs : List Char) : Option Nat := if cs = [] then none else digitsFrom 10 0 cs

/-- `0x` and a fixed number of hexadecimal digits. -/
def hexNumber (digits : Nat) : List Char → Option Nat
  | '0' :: 'x' :: cs => if cs.length = digits then digitsFrom 16 0 cs else none
  | _ => none

/-- A `<byte>` written as a number: "`0x` and two hexadecimal digits, or a decimal number `0..255`" (R43). -/
def byteNumber (cs : List Char) : Except AsmError Byte :=
  match (hexNumber 2 cs).or (decimal cs) with
  | some n => if n < 256 then .ok (BitVec.ofNat 8 n) else .error .badOperand
  | none => .error .badOperand

/-! ## Lines -/

/-- The annotation after an operation, if there is one (R43). -/
def annotation : List Token → Except AsmError (Option Expected)
  | [] => .ok none
  | [.word ['-', '>'], .word ['n', 'o', 'n', 'e']] => .ok (some .none)
  | [.word ['-', '>'], .word ['h', 'o', 'l', 'd']] => .ok (some .hold)
  | [.word ['-', '>'], .word ['v', 'a', 'l', 'i', 'd'], .word cs] =>
    match hexNumber 4 cs with
    | some p => .ok (some (.valid p))
    | none => .error .badAnnotation
  | _ => .error .badAnnotation

/-- An operation together with the annotation that follows it. -/
def annotated (src : Source) (rest : List Token) : Except AsmError (Option (Source × Option Expected)) :=
  (annotation rest).map fun e => some (src, e)

/-- A pseudo-operation with a number `n`, together with the annotation that follows it. How `n` is written R44 does not
say: decimal digits only, neither `0x` nor `0b`. DESIGN CHOICE, safe (log 18). -/
def annotatedNumber (f : Nat → Source) (cs : List Char) (rest : List Token) :
    Except AsmError (Option (Source × Option Expected)) :=
  match decimal cs with
  | some n => annotated (f n) rest
  | none => .error .badOperand

/-- The operation of a line's tokens: none for an empty line (R43, R44). -/
def parseTokens : List Token → Except AsmError (Option (Source × Option Expected))
  | [] => .ok none
  | .word ['R', 'S', 'T'] :: rest => annotated (.op .rst) rest
  | .word ['E', 'N', 'D', 'B'] :: rest => annotated (.op .endb) rest
  | .word ['W', 'N', 'O', 'P'] :: rest => annotated (.op .wnop) rest
  | .word ['P', 'O', 'P'] :: rest => annotated (.op .pop) rest
  | .word ['R', 'N', 'O', 'P'] :: rest => annotated (.op .rnop) rest
  | .word ['P', 'U', 'T', 'B'] :: .byte b :: rest => annotated (.op (.putb b)) rest
  | .word ['P', 'U', 'T', 'B'] :: .word cs :: rest =>
    match byteNumber cs with
    | .ok b => annotated (.op (.putb b)) rest
    | .error e => .error e
  | .word ['P', 'U', 'T', 'S'] :: .text bs :: rest => annotated (.puts bs) rest
  | .word ['L', 'I', 'N', 'E'] :: .text bs :: rest => annotated (.line bs) rest
  | .word ['P', 'O', 'P', 'N'] :: .word cs :: rest => annotatedNumber .popn cs rest
  | .word ['F', 'I', 'L', 'L'] :: .word cs :: rest => annotatedNumber .fill cs rest
  | _ => .error .badOperation

/-- One line of a program (R43). -/
def assembleLine (cs : List Char) : Except AsmError (Option (Source × Option Expected)) :=
  match lexFrom .blank cs with
  | .ok ts => parseTokens ts
  | .error e => .error e

/-! ## Printing -/

/-- A digit in base 16, upper case. -/
def hexChar (n : Nat) : Char := if n < 10 then Char.ofNat (48 + n) else Char.ofNat (55 + n)

/-- A byte as `0x` and two hexadecimal digits (R43). -/
def printByte (b : Byte) : List Char := ['0', 'x', hexChar (b.toNat / 16), hexChar (b.toNat % 16)]

/-- An operation as a line of the syntax (R43). -/
def printInstr : Instr → List Char
  | .wnop => ['W', 'N', 'O', 'P']
  | .putb d => ['P', 'U', 'T', 'B', ' '] ++ printByte d
  | .endb => ['E', 'N', 'D', 'B']
  | .rnop => ['R', 'N', 'O', 'P']
  | .pop => ['P', 'O', 'P']
  | .rst => ['R', 'S', 'T']

end Sys2Proof.Machine
end

