-- ==== Sys2Proof/Machine/Unbounded.lean ====
section
/-! DEFINITION. The machine `U` of 41_fifo.md R62: "this block with `DEPTH` infinite: `PUTB` never holds, `q` is an
unbounded list, everything else the same". It is the document's own queue fed by its codec. -/

namespace Sys2Proof.Machine

/-- The state of `U`: the codec's two elements and the contents, with the model's own fields beside them. -/
structure UState where
  loByte : Byte
  pend : Bool
  /-- `q`, oldest first. -/
  q : List Int
  rstDone : Bool
  reply : Reply
  draws : Nat
deriving DecidableEq, Repr

/-- What of a state `U` has: "the states agree on `q`, `pend`, `lo_byte`, and the responses agree" (R62). -/
def State.unbounded (s : State) : UState where
  loByte := s.loByte
  pend := s.pend
  q := s.contents
  rstDone := s.rstDone
  reply := s.reply
  draws := s.draws

/-- `PUTB d` on `U`: it never holds (R62). -/
def UState.takeByte (u : UState) (d : Byte) : UState :=
  if u.pend then { u with q := u.q ++ [decodeSample u.loByte d], pend := false, reply := Reply.accepted }
  else { u with loByte := d, pend := true, reply := Reply.accepted }

/-- A read-port operation on `U` that returns no sample. -/
def UState.answerNoSample (u : UState) : UState :=
  { u with reply := Reply.noSample u.draws, draws := u.draws + 1 }

/-- `POP` on `U`: "`try_pop`" of the queue. -/
def UState.takeSample (u : UState) : UState :=
  match u.q with
  | [] => u.answerNoSample
  | x :: rest => { u with q := rest, reply := Reply.sample x }

/-- `RST` on `U`: the queue is created empty. -/
def UState.cleared (u : UState) : UState :=
  { u with
    q := [], pend := false, loByte := Config.unspecifiedByte u.draws
    draws := u.draws + 1, rstDone := true, reply := Reply.accepted }

/-- The next state of an operation of `U`, refused before the first `RST` as in the block (10_state.md R21). -/
def UState.next (u v : UState) : Host.Outcome UState Fault Refusal :=
  if u.rstDone then .next v else .refused .beforeFirstReset

/-- One step of `U`. -/
def uexec (i : Instr) (u : UState) : Host.Outcome UState Fault Refusal :=
  match i with
  | .wnop => u.next { u with reply := Reply.accepted }
  | .putb d => u.next (u.takeByte d)
  | .endb => u.next { u with pend := false, reply := Reply.accepted }
  | .rnop => u.next u.answerNoSample
  | .pop => u.next u.takeSample
  | .rst => .next u.cleared

/-- A schedule run on `U`. -/
def urunOps : List Instr → UState → Host.Outcome UState Fault Refusal
  | [], u => .next u
  | i :: rest, u =>
    match uexec i u with
    | .next v => urunOps rest v
    | .fault f => .fault f
    | .refused r => .refused r

end Sys2Proof.Machine
end

