-- ==== Sys2Proof/Safety.lean ====
section
/-! DEFINITION. The words the claims use: the invariant of the block, what is seen of a run, and the states that differ
only in what the spec leaves unspecified. -/

namespace Sys2Proof.Machine

/-- The invariant of 10_state.md R14, with what R22 adds to it (every entry of the occupied window has been written
since reset), the form of a stored sample (30_encoding.md R35: bits 3 to 0 are zero) and the storage's own
form. Before the first `RST` only the configuration and the form are asked (R21: "the invariant of rule R14 need
not hold"). -/
abbrev Consistent (s : State) : Prop :=
  1 ≤ s.depth ∧ s.mem.wf = true ∧
  (s.rstDone = true →
    s.count ≤ s.depth ∧ s.rp < s.depth ∧ s.wp < s.depth ∧ s.wp = (s.rp + s.count) % s.depth ∧
    (∀ c ∈ s.mem, c.1 < s.depth) ∧ (∀ c ∈ s.mem, c.2 &&& 0x000F = 0) ∧
    (∀ k, k < s.count → (s.mem.read (s.windowIndex k)).isSome = true))

/-- The bytes a step took: one, if the operation is a `PUTB` and was accepted. -/
def bytesTaken (i : Instr) (_ t : State) : List Byte :=
  match i with
  | .putb d => if t.reply.taken = .accepted then [d] else []
  | _ => []

/-- The samples a step added at the new end of the contents. -/
def samplesPushed (_ : Instr) (s t : State) : List Int := t.contents.drop s.contents.length

/-- The samples a step delivered to the consumer. -/
def samplesPopped (_ : Instr) (_ t : State) : List Sample := t.reply.delivered

/-- What an observation sees along a schedule, step by step, in order. -/
def along {α : Type} (f : Instr → State → State → List α) : List Instr → State → List α
  | [], _ => []
  | i :: rest, s =>
    match exec i s with
    | .next t => f i s t ++ along f rest t
    | _ => []

/-- The operation of a step, if it was accepted: "A step is one accepted operation" (00_scope.md glossary). -/
def acceptedOps (i : Instr) (_ t : State) : List Instr := if t.reply.taken = .held then [] else [i]

/-- The response of an accepted step, if its operation has one. -/
def acceptedAnswers (_ : Instr) (_ t : State) : List (Option ReadReply) :=
  if t.reply.taken = .held then [] else [t.reply.read]

/-- The responses of `U` along a schedule (41_fifo.md R62). -/
def ualongAnswers : List Instr → UState → List (Option ReadReply)
  | [], _ => []
  | i :: rest, u =>
    match uexec i u with
    | .next v => v.reply.read :: ualongAnswers rest v
    | _ => []

/-- What the agents can see of an answer: `rd_data` only where `rd_valid = 1` (41_fifo.md R57). -/
def Reply.visible (r : Reply) : Taken × Option (Option Sample) :=
  (r.taken, r.read.map fun x => if x.rdValid then some x.rdData else none)

/-- What the agents can see of a step: its answer and the five status outputs after it (60_exceptions.md R70). -/
def visibleStep (_ : Instr) (_ t : State) : List (Taken × Option (Option Sample) × Bool × Bool × Nat × Bool × Bool) :=
  [(t.reply.visible.1, t.reply.visible.2, t.empty, t.full, t.level, t.pendO, t.wrReady)]

/-- The two states agree but for what 10_state.md R22 calls never read: `lo_byte` while `pend = 0`, the entries outside
the occupied window, and the model's own fields. -/
abbrev SameButUnspecified (s t : State) : Prop :=
  s.pend = t.pend ∧ (s.pend = true → s.loByte = t.loByte) ∧ s.wp = t.wp ∧ s.rp = t.rp ∧ s.count = t.count ∧
  s.depth = t.depth ∧ s.rstDone = t.rstDone ∧
  ∀ k, k < s.count → s.entry (s.windowIndex k) = t.entry (t.windowIndex k)

/-- The block's part of a state, with the model's own fields at fixed values: two states with equal blocks differ only
in what is presented, answered and drawn. -/
def State.block (s : State) : State :=
  { s with inputs := [], reply := Reply.nothing, draws := 0 }

end Sys2Proof.Machine
end

