-- ==== Sys2Proof/Certificates/Slice0/Obligations.lean ====
section
/-! DEFINITION. The statements for the provers. Each docstring names the rule of spec/ a statement formalises; where a
clause rests on a choice of the model it names the log entry. The answer of a step stands in `State.reply` and the
schedule in `State.inputs` (logs 6, 7); a statement about every state is about every schedule and every `DEPTH` (log 1). -/

open Sys2Proof Sys2Proof.Machine

/-! ## Encodings -/

/-- Decode and encode agree. Decoding the canonical word of an operation (R40) gives the operation back, from the word
and from the bytes that carry it; whatever bytes on a port decode, they are as many as the canonical word's and the
operation is one of that port's agent; and only the wrong number of bytes and the format X word 0 decode to
nothing. The bytes are the model's container of a word (log 10). -/
def Obligations.DecodingInvertsEncoding : Prop :=
  (∀ i : Instr, i.wellFormed = true →
    decode (encode i) = .ok i ∧ decodeBytes i.agent.port (encode i).bytes = .ok i) ∧
  (∀ (p : Port) (bytes : List Byte) (i : Instr), decodeBytes p bytes = .ok i →
    i.agent.port = p ∧ (encode i).bytes.length = bytes.length) ∧
  (∀ (p : Port) (bytes : List Byte), (∃ e, decodeBytes p bytes = .error e) ↔
    (bytes.length ≠ if p = .write then 2 else 1) ∨
    (p = .reset ∧ ∃ b : Byte, bytes = [b] ∧ b.getLsbD 0 = false))

/-- R40: "A command word `w` selects a row iff `(w & mask) = match`", and every pattern of every format selects exactly
one operation, the format X word 0 none; the operand is `wr_data`. -/
def Obligations.EveryCommandWordSelectsItsRow : Prop :=
  (∀ (c : Command) (i : Instr), decode c = .ok i ↔
    (i.opcodeRow.selects c = true ∧ ∀ d, i = .putb d → ∃ w, c = .write w ∧ d = BitVec.ofNat 8 w.toNat)) ∧
  (∀ c : Command, c ≠ .reset 0 → (opcodeRows.filter fun r => r.selects c).length = 1) ∧
  (opcodeRows.filter fun r => r.selects (.reset 0)).length = 0 ∧
  encode .wnop = .write 0x000 ∧ (∀ d : Byte, encode (.putb d) = .write (BitVec.ofNat 10 (0x200 + d.toNat))) ∧
  encode .endb = .write 0x300 ∧ encode .rnop = .read 0 ∧ encode .pop = .read 1 ∧ encode .rst = .reset 1

/-- R41: no word of the write port or of the read port is reserved or illegal, all 256 bytes are operands of `PUTB`, and
"A don't-care bit has no effect whatever on state or outputs": two words with `wr_valid = 0`, or two with
`wr_valid = wr_end = 1`, make the same step. -/
def Obligations.DontCareBitsHaveNoEffect : Prop :=
  (∀ w : BitVec 10, ∃ i, decode (.write w) = .ok i) ∧ (∀ w : BitVec 1, ∃ i, decode (.read w) = .ok i) ∧
  (∀ d : Byte, ∃ w : BitVec 10, decode (.write w) = .ok (.putb d)) ∧
  ∀ (w w' : BitVec 10) (rest : List Input) (s : State),
    ((w.getLsbD 9 = false ∧ w'.getLsbD 9 = false) ∨
      (w.getLsbD 9 = true ∧ w.getLsbD 8 = true ∧ w'.getLsbD 9 = true ∧ w'.getLsbD 8 = true)) →
    step (s.withInputs (.command (.write w) :: rest)) = step (s.withInputs (.command (.write w') :: rest))

/-- Words written out bit by bit from the encodings of R37 to R40 decode to the operations they stand for. -/
def Obligations.WordsWrittenOutDecode : Prop :=
  decode (.write 0b0000000000) = .ok .wnop ∧ decode (.write 0b0111111111) = .ok .wnop ∧
  decode (.write 0b1001000001) = .ok (.putb 0x41) ∧ decode (.write 0b1011111111) = .ok (.putb 0xFF) ∧
  decode (.write 0b1100000000) = .ok .endb ∧ decode (.write 0b1101000001) = .ok .endb ∧
  decode (.read 0b0) = .ok .rnop ∧ decode (.read 0b1) = .ok .pop ∧ decode (.reset 0b1) = .ok .rst

/-- A step runs the decoded operation: with a command at the head of the schedule that decodes to `i`, the step is `exec i` on the
state without that command; so it is for a table word that `withFetchWord` presents. -/
def Obligations.StepRunsTheDecodedOperation : Prop :=
  (∀ (s : State) (c : Command) (rest : List Input) (i : Instr),
    s.inputs = .command c :: rest → decode c = .ok i → i.wellFormed = true →
    step s = exec i { s with inputs := rest }) ∧
  (∀ (s : State) (nbits w : Nat) (i : Instr),
    decodeTableWord nbits w = some i → step (s.withFetchWord nbits w) = exec i s)

/-- Nothing presented, and the format X word 0 ("the absence of a host operation", R40), leave the block as it is. -/
def Obligations.NothingPresentedChangesNothing : Prop :=
  (∀ s : State, s.inputs = [] → step s = .next { s with reply := ⟨.nothing, none⟩ }) ∧
  (∀ (s : State) (rest : List Input), s.inputs = .command (.reset 0) :: rest →
    step s = .next { s with inputs := rest, reply := ⟨.nothing, none⟩ })

/-- R43: the line an operation is printed as assembles to that operation, with no annotation. -/
def Obligations.AssemblerReadsPrintedOperations : Prop :=
  ∀ i : Instr, assembleLine (printInstr i) = .ok (some (.op i, none))

/-! ## The codec -/

/-- R45: the three runs of the alphabet, `+` and `/`, and 0 for every other byte; on the 64 bytes of the alphabet the
function is injective. -/
def Obligations.DecodeCharFollowsTheAlphabet : Prop :=
  (∀ n, n < 26 → decodeChar (BitVec.ofNat 8 (0x41 + n)) = BitVec.ofNat 6 n) ∧
  (∀ n, n < 26 → decodeChar (BitVec.ofNat 8 (0x61 + n)) = BitVec.ofNat 6 (26 + n)) ∧
  (∀ n, n < 10 → decodeChar (BitVec.ofNat 8 (0x30 + n)) = BitVec.ofNat 6 (52 + n)) ∧
  decodeChar 0x2B = 62 ∧ decodeChar 0x2F = 63 ∧
  (∀ b : Byte, inAlphabet b = false → decodeChar b = 0) ∧
  (∀ b b' : Byte, inAlphabet b = true → inAlphabet b' = true → decodeChar b = decodeChar b' → b = b')

/-- R34: "Every 12-bit value is spelt by exactly one pair of alphabet characters", the first of the pair giving the low
6 bits and the second the high 6 bits. -/
def Obligations.EveryCodeIsSpeltByOneAlphabetPair : Prop :=
  (∀ (low high : Byte) (i : Nat), i < 12 → (pairCode low high).getLsbD i =
    if i < 6 then (decodeChar low).getLsbD i else (decodeChar high).getLsbD (i - 6)) ∧
  ∀ v : Code, ∃ low high : Byte,
    (inAlphabet low = true ∧ inAlphabet high = true ∧ pairCode low high = v) ∧
    ∀ low' high' : Byte, inAlphabet low' = true → inAlphabet high' = true → pairCode low' high' = v →
      low' = low ∧ high' = high

/-- R46: `v = (decode_char(high) << 6) | decode_char(low)`, which is `64 * decode_char(high) + decode_char(low)`, an
inference that R46 marks as derived from R45; the sample is `(v - 2048) * 16` in mathematical integers and always fits `s16`; a byte outside the alphabet contributes
symbol 0 in its position. -/
def Obligations.DecodeSampleScalesTheCode : Prop :=
  ∀ low high : Byte,
    (pairCode low high).toNat = 64 * (decodeChar high).toNat + (decodeChar low).toNat ∧
    decodeSample low high = (((pairCode low high).toNat : Int) - 2048) * 16 ∧
    int16 (bits16 (decodeSample low high)) = decodeSample low high ∧
    (inAlphabet low = false → decodeSample low high = 1024 * ((decodeChar high).toNat : Int) - 32768) ∧
    (inAlphabet high = false → decodeSample low high = 16 * ((decodeChar low).toNat : Int) - 32768)

/-- R47: the pattern of a decoded sample is the code with bit 11 inverted, shifted left by 4; its fields are the
complement of the high symbol's top bit, the rest of that symbol, the low symbol and four zeros. -/
def Obligations.SamplePatternIsTheShiftedCode : Prop :=
  ∀ low high : Byte,
    bits16 (decodeSample low high) = (pairCode low high ^^^ 0x800).setWidth 16 <<< 4 ∧
    ∀ i, i < 16 → (bits16 (decodeSample low high)).getLsbD i =
      if i < 4 then false
      else if i < 10 then (decodeChar low).getLsbD (i - 4)
      else if i < 15 then (decodeChar high).getLsbD (i - 10)
      else !(decodeChar high).getLsbD 5

/-- R54 (c) to (f): a decoded sample lies in `-32768 .. 32752`, is a multiple of 16 and fits `s16`; the map from codes to
samples is strictly increasing; and every `16 * k` of the range is the sample of some pair. -/
def Obligations.DecodedSamplesFitSixteenBits : Prop :=
  (∀ low high : Byte, -32768 ≤ decodeSample low high ∧ decodeSample low high ≤ 32752 ∧
    decodeSample low high % 16 = 0 ∧ int16 (bits16 (decodeSample low high)) = decodeSample low high) ∧
  (∀ v v' : Code, v.toNat < v'.toNat → codeSample v < codeSample v') ∧
  (∀ k : Int, -2048 ≤ k → k ≤ 2047 → ∃ low high : Byte, decodeSample low high = 16 * k)

/-- R48: `decode_buffer` emits `floor(len/2)` samples, the `k`-th from bytes `2k` and `2k + 1`, an unpaired last byte
dropped; serialised, they are `2 * floor(len / 2)` bytes. -/
def Obligations.DecodeBufferPairsBytesInOrder : Prop :=
  ∀ bytes : List Byte,
    (decodeBuffer bytes).length = bytes.length / 2 ∧
    (streamBytes (decodeBuffer bytes)).length = 2 * (bytes.length / 2) ∧
    ∀ (k : Nat) (low high : Byte), bytes[2 * k]? = some low → bytes[2 * k + 1]? = some high →
      (decodeBuffer bytes)[k]? = some (decodeSample low high)

/-- R24: the byte form of a sample is its low byte and then its high byte, for a list of samples one pair after another
(R36); the low byte of a decoded sample is a multiple of 16, an inference that R36 marks as derived from R35. -/
def Obligations.ByteFormIsLowByteFirst : Prop :=
  (∀ p : Sample, sampleBytes p = [BitVec.ofNat 8 p.toNat, BitVec.ofNat 8 (p.toNat / 256)]) ∧
  (∀ (x : Int) (xs : List Int), streamBytes (x :: xs) = sampleBytes (bits16 x) ++ streamBytes xs) ∧
  (∀ low high b0 b1 : Byte, sampleBytes (bits16 (decodeSample low high)) = [b0, b1] → b0.toNat % 16 = 0)

/-- R75: a stray byte at the end of a line of even length is dropped; the two terminator bytes left there add the one
sample -32768; a byte outside the alphabet counts as symbol 0 in its place. -/
def Obligations.TerminatorsLeftOnALine : Prop :=
  (∀ (bytes : List Byte) (b : Byte), bytes.length % 2 = 0 → decodeBuffer (bytes ++ [b]) = decodeBuffer bytes) ∧
  (∀ bytes : List Byte, bytes.length % 2 = 0 →
    decodeBuffer (bytes ++ [0x0D, 0x0A]) = decodeBuffer bytes ++ [-32768]) ∧
  (∀ b d : Byte, inAlphabet b = false →
    decodeSample b d = decodeSample 0x41 d ∧ decodeSample d b = decodeSample d 0x41)

/-! ## The write port -/

/-- R49, first branch: a first byte is kept, also when the FIFO is full, and nothing enters the FIFO. -/
def Obligations.PutbKeepsAFirstByte : Prop :=
  ∀ (d : Byte) (s : State), s.rstDone = true → s.pend = false →
    exec (.putb d) s = .next { s with loByte := d, pend := true, reply := ⟨.accepted, none⟩ }

/-- R49, second branch, with `Push` of R55: the pair is decoded with the kept byte as the low one and stored at `wp`. -/
def Obligations.PutbPushesADecodedPair : Prop :=
  ∀ (d : Byte) (s : State), s.rstDone = true → s.pend = true → s.count ≠ s.depth →
    exec (.putb d) s = .next
      { s with
        mem := s.mem.write s.wp (BitVec.ofInt 16 (decodeSample s.loByte d))
        wp := (s.wp + 1) % s.depth, count := s.count + 1, pend := false, reply := ⟨.accepted, none⟩ }

/-- R49: a second byte at a full FIFO is held: nothing of the block changes (the hold as a step that changes nothing is
the model's, log 14). -/
def Obligations.PutbIsHeldAtAFullFifo : Prop :=
  ∀ (d : Byte) (s : State), s.rstDone = true → s.pend = true → s.count = s.depth →
    exec (.putb d) s = .next { s with reply := ⟨.held, none⟩ }

/-- R49, R16: a `PUTB` is accepted iff `wr_ready = 1`; held, it leaves the whole block as it is. That a held `PUTB` answers
a next state at all is the model's choice (log 14). -/
def Obligations.PutbIsAcceptedExactlyWhenReady : Prop :=
  ∀ (d : Byte) (s : State), s.rstDone = true →
    ∃ t, exec (.putb d) s = .next t ∧
      (t.reply.taken = .accepted ↔ s.wrReady = true) ∧ (t.reply.taken = .held ↔ s.wrReady = false) ∧
      (s.wrReady = false → t.block = s.block) ∧ (s.wrReady = true → t.pend = !s.pend)

/-- R67: at a hold the byte is not looked at: any two bytes are held alike (a hold as a step is the model's, log 14). -/
def Obligations.HoldIgnoresTheByte : Prop :=
  ∀ (d d' : Byte) (s : State), s.pend = true → s.count = s.depth → exec (.putb d) s = exec (.putb d') s

/-- R53: no byte, pair or buffer makes the codec fail, stall, flag or count anything: whatever the byte, `PUTB` runs, and
the answer and all that is counted are the same for every byte; so it is for the byte an `ENDB` drops. That `PUTB` runs
also at `wr_ready = 0`, where it is held, is the model's choice (log 14). -/
def Obligations.EveryByteIsDecodedLeniently : Prop :=
  ∀ (d : Byte) (s : State), s.rstDone = true →
    (∃ t, exec (.putb d) s = .next t) ∧
    (∀ (d' : Byte) (t t' : State), exec (.putb d) s = .next t → exec (.putb d') s = .next t' →
      t.reply = t'.reply ∧ t.pend = t'.pend ∧ t.count = t'.count ∧ t.wp = t'.wp ∧ t.rp = t'.rp) ∧
    ∃ t, exec .endb s = .next t ∧ t.reply = ⟨.accepted, none⟩ ∧ t.count = s.count

/-- R50: every word `11xxxxxxxx` is `ENDB`; it is accepted whatever `wr_ready` shows, clears `pend` and changes nothing
else; afterwards `pend_o` is 0 and `wr_ready` is 1. -/
def Obligations.EndbForgetsAHeldByte : Prop :=
  Instr.endb.agent = .producer ∧
  (∀ w : BitVec 10, w.getLsbD 9 = true → w.getLsbD 8 = true → decode (.write w) = .ok .endb) ∧
  ∀ s : State, s.rstDone = true →
    ∃ t, exec .endb s = .next t ∧ t = { s with pend := false, reply := ⟨.accepted, none⟩ } ∧
      t.pendO = false ∧ t.wrReady = true ∧ t.contents = s.contents

/-- R51: every word `0xxxxxxxxx` is `WNOP`; it is always accepted and changes no state and no output. -/
def Obligations.WnopChangesNothing : Prop :=
  Instr.wnop.agent = .producer ∧
  (∀ w : BitVec 10, w.getLsbD 9 = false → decode (.write w) = .ok .wnop) ∧
  ∀ s : State, s.rstDone = true → exec .wnop s = .next { s with reply := ⟨.accepted, none⟩ }

/-- R55: the sample of a completed pair is stored at `wp`, `wp` and `count` go up by one, `rp` is not touched; the
contents (R15) become `q ++ [s]`, so no queued sample is overwritten. -/
def Obligations.PushAppendsToTheContents : Prop :=
  ∀ (d : Byte) (s : State), Consistent s → s.rstDone = true → s.pend = true → s.count < s.depth →
    ∃ t, exec (.putb d) s = .next t ∧ t.entry s.wp = bits16 (decodeSample s.loByte d) ∧
      (∀ j, j ≠ s.wp → t.entry j = s.entry j) ∧ t.wp = (s.wp + 1) % s.depth ∧ t.count = s.count + 1 ∧ t.rp = s.rp ∧
      t.contents = s.contents ++ [decodeSample s.loByte d] ∧ t.level = s.level + 1 ∧ t.empty = false

/-! ## The read port -/

/-- R57, with R56: `POP` is always accepted. On an empty FIFO it answers `rd_valid = 0`, `rd_data` may be anything (a draw,
log 3), and the block is exactly as before; else it answers `rd_valid = 1` with the entry at `rp` and moves `rp` and
`count`, and nothing else: the entry is not cleared. -/
def Obligations.PopAnswersByTheCount : Prop :=
  Instr.pop.agent = .consumer ∧ decode (.read 1) = .ok .pop ∧
  ∀ s : State, s.rstDone = true →
    (s.count = 0 → ∃ t x, exec .pop s = .next t ∧ t.block = s.block ∧ t.inputs = s.inputs ∧
      t.reply = ⟨.accepted, some ⟨false, x⟩⟩) ∧
    (s.count ≠ 0 → exec .pop s = .next
      { s with rp := (s.rp + 1) % s.depth, count := s.count - 1, reply := ⟨.accepted, some ⟨true, s.entry s.rp⟩⟩ })

/-- R58: `RNOP` is always accepted, answers `rd_valid = 0` and changes nothing of the block. -/
def Obligations.RnopChangesNothing : Prop :=
  Instr.rnop.agent = .consumer ∧ decode (.read 0) = .ok .rnop ∧
  ∀ s : State, s.rstDone = true →
    ∃ t x, exec .rnop s = .next t ∧ t.block = s.block ∧ t.inputs = s.inputs ∧
      t.reply = ⟨.accepted, some ⟨false, x⟩⟩

/-- R56: a successful `POP` removes and returns the sample at `rp`, the first of the contents (R15), and leaves the rest
in order; `mem` and `wp` are not touched; `full` becomes 0 and `wr_ready` 1 (R57). -/
def Obligations.PopRemovesTheOldestSample : Prop :=
  ∀ s : State, Consistent s → s.rstDone = true → 0 < s.count →
    ∃ t x, exec .pop s = .next t ∧ x = int16 (s.entry s.rp) ∧ s.contents = x :: t.contents ∧
      t.reply.read = some ⟨true, bits16 x⟩ ∧ bits16 x = s.entry s.rp ∧
      t.rp = (s.rp + 1) % s.depth ∧ t.count = s.count - 1 ∧ t.mem = s.mem ∧ t.wp = s.wp ∧
      t.full = false ∧ t.wrReady = true ∧ t.level + 1 = s.level

/-- R61: a `POP` on an empty FIFO answers `rd_valid = 0`, changes nothing and leaves no trace: whatever comes after it is
answered, and does to the block, what it would have been and done without it. -/
def Obligations.UnderrunLeavesNoTrace : Prop :=
  ∀ s : State, s.rstDone = true → s.count = 0 →
    ∃ t x, exec .pop s = .next t ∧ t.reply = ⟨.accepted, some ⟨false, x⟩⟩ ∧ t.block = s.block ∧
      ∀ i : Instr, ∃ u v, exec i t = .next u ∧ exec i s = .next v ∧
        SameButUnspecified u v ∧ u.reply.visible = v.reply.visible

/-! ## Reset -/

/-- The table of R20, with R63: `RST` is accepted in every state, the one before the first reset included; it empties
the FIFO and the codec, and the status outputs read as the rule lists them. -/
def Obligations.RstEmptiesTheBlock : Prop :=
  decode (.reset 1) = .ok .rst ∧
  ∀ s : State, ∃ t, exec .rst s = .next t ∧
    t.count = 0 ∧ t.wp = 0 ∧ t.rp = 0 ∧ t.pend = false ∧ t.rstDone = true ∧ t.contents = [] ∧
    (1 ≤ s.depth → t.empty = true ∧ t.full = false ∧ t.level = 0 ∧ t.pendO = false ∧ t.wrReady = true) ∧
    t.depth = s.depth ∧ t.arb = s.arb ∧ t.inputs = s.inputs ∧ t.reply = ⟨.accepted, none⟩

/-- R20, R16: the values the spec gives the state after reset, and the status outputs there. -/
def Obligations.ResetStateIsEmpty : Prop :=
  State.reset.count = 0 ∧ State.reset.pend = false ∧ State.reset.wp = 0 ∧ State.reset.rp = 0 ∧
  State.reset.contents = [] ∧ State.reset.arb = .either ∧ 1 ≤ State.reset.depth ∧
  State.reset.empty = true ∧ State.reset.full = false ∧ State.reset.level = 0 ∧ State.reset.pendO = false ∧
  State.reset.wrReady = true

/-- R21: before the first `RST` every other operation is refused, and nothing else ever is. -/
def Obligations.OperationsBeforeTheFirstResetAreRefused : Prop :=
  (∀ (i : Instr) (s : State), s.rstDone = false → i ≠ .rst → exec i s = .refused .beforeFirstReset) ∧
  (∀ (i : Instr) (s : State) (r : Refusal), exec i s = .refused r →
    r = .beforeFirstReset ∧ s.rstDone = false ∧ i ≠ .rst)

/-- R65: there is no fault, and after the first `RST` nothing is refused: an operation or a step from such a state, whatever
is presented, gives a next state, and a reset has still happened there. Where R65 says "or `hold`" the next state is
the model's choice (log 14), and so is a step with nothing presented (log 6) or with a clock vector (log 8). -/
def Obligations.EveryOperationRunsAfterReset : Prop :=
  (∀ (i : Instr) (s : State) (f : Fault), exec i s ≠ .fault f) ∧
  (∀ (i : Instr) (s : State), s.rstDone = true → ∃ t, exec i s = .next t ∧ t.rstDone = true) ∧
  (∀ s : State, s.rstDone = true → ∃ t, step s = .next t ∧ t.rstDone = true)

/-! ## Status outputs -/

/-- R16: the five outputs, and `empty` and `full` never both, because `DEPTH >= 1`. -/
def Obligations.StatusOutputsFollowTheState : Prop :=
  ∀ s : State,
    (s.empty = true ↔ s.count = 0) ∧ (s.full = true ↔ s.count = s.depth) ∧ s.level = s.count ∧
    s.pendO = s.pend ∧ (s.wrReady = false ↔ s.pend = true ∧ s.count = s.depth) ∧
    (1 ≤ s.depth → ¬ (s.empty = true ∧ s.full = true))

/-- R77: `wr_ready` falls only across the producer's own first-byte `PUTB`, at a full FIFO. -/
def Obligations.ReadyFallsOnlyAcrossAFirstByte : Prop :=
  ∀ (i : Instr) (s t : State), Consistent s → exec i s = .next t → s.wrReady = true → t.wrReady = false →
    s.pend = false ∧ s.count = s.depth ∧ ∃ d, i = .putb d

/-! ## Frames and rights -/

/-- What a write-port operation leaves unchanged (R49, R50, R51, R55): everything of the FIFO but the entry at `wp` that
a second byte stores, `wp` and `count`; `lo_byte` but for a first byte. -/
def Obligations.WritePortFrame : Prop :=
  ∀ (i : Instr) (s t : State), i.agent = .producer → Consistent s → exec i s = .next t →
    t.rp = s.rp ∧ t.depth = s.depth ∧ t.arb = s.arb ∧ t.rstDone = s.rstDone ∧ t.inputs = s.inputs ∧
    t.draws = s.draws ∧ t.memDraw = s.memDraw ∧
    (∀ j, j ≠ s.wp → t.entry j = s.entry j) ∧
    (¬ ((∃ d, i = .putb d) ∧ s.pend = true ∧ s.count ≠ s.depth) →
      t.mem = s.mem ∧ t.wp = s.wp ∧ t.count = s.count) ∧
    (¬ ((∃ d, i = .putb d) ∧ s.pend = false) → t.loByte = s.loByte) ∧
    (i = .wnop → t.pend = s.pend)

/-- What a read-port operation leaves unchanged (R57, R58): the codec, the storage and `wp`; `RNOP`, and `POP` on an
empty FIFO, leave `rp` and `count` too. -/
def Obligations.ReadPortFrame : Prop :=
  ∀ (i : Instr) (s t : State), i.agent = .consumer → exec i s = .next t →
    t.loByte = s.loByte ∧ t.pend = s.pend ∧ t.mem = s.mem ∧ t.wp = s.wp ∧ t.depth = s.depth ∧ t.arb = s.arb ∧
    t.rstDone = s.rstDone ∧ t.inputs = s.inputs ∧ t.memDraw = s.memDraw ∧ (∀ j, t.entry j = s.entry j) ∧
    (i = .rnop ∨ s.count = 0 → t.rp = s.rp ∧ t.count = s.count)

/-- R55, R60: no write-port operation overwrites a queued sample. -/
def Obligations.QueuedSamplesAreNotOverwritten : Prop :=
  ∀ (i : Instr) (s t : State), i.agent = .producer → Consistent s → exec i s = .next t →
    ∀ k, k < s.count → t.entry (s.windowIndex k) = s.entry (s.windowIndex k) ∧ t.windowIndex k = s.windowIndex k

/-- R70: the producer changes `count` only upward, by at most one, the consumer only downward, by at most one; only the
host empties the FIFO at once. -/
def Obligations.AgentsMoveTheCountTheirOwnWay : Prop :=
  ∀ (i : Instr) (s t : State), exec i s = .next t →
    (i.agent = .producer → t.count = s.count ∨ (t.count = s.count + 1 ∧ s.pend = true)) ∧
    (i.agent = .consumer → t.count = s.count ∨ (t.count + 1 = s.count ∧ ∃ x, t.reply.read = some ⟨true, x⟩)) ∧
    (i.agent = .host → t.count = 0)

/-- R78: `empty = 0` seen before a `POP` guarantees that it succeeds, whatever the producer does in between. -/
def Obligations.NonemptyFifoServesTheNextPop : Prop :=
  ∀ (ops : List Instr) (s : State), Consistent s → s.rstDone = true → s.empty = false →
    (∀ i ∈ ops, i.agent = .producer) →
    ∃ t u, runOps ops s = .next t ∧ exec .pop t = .next u ∧ u.reply.read = some ⟨true, s.entry s.rp⟩

/-- R26: `ENDB`, `WNOP`, `RNOP` and `RST` done twice leave what they leave done once, the values that `RST` leaves
unspecified apart. -/
def Obligations.IdempotentOperations : Prop :=
  ∀ (i : Instr) (s : State), i = .endb ∨ i = .wnop ∨ i = .rnop ∨ i = .rst → (s.rstDone = true ∨ i = .rst) →
    ∃ t u, exec i s = .next t ∧ exec i t = .next u ∧ SameButUnspecified t u ∧ (i ≠ .rst → u.block = t.block)

/-! ## Invariants -/

/-- R14, with R22 and R35: `wp = (rp + count) mod DEPTH`, the ranges, every queued entry written, the form of the stored
samples and of the storage: every step keeps them. -/
def Obligations.StepKeepsTheInvariant : Prop :=
  ∀ s t : State, Consistent s → step s = .next t → Consistent t

/-- R14: the invariant holds at reset, and after an `RST` in any state with a `DEPTH` of at least 1. -/
def Obligations.ResetSatisfiesTheInvariant : Prop :=
  Consistent State.reset ∧ ∀ s t : State, 1 ≤ s.depth → exec .rst s = .next t → Consistent t

/-- R17 (a): `DEPTH` and `ARB` are configuration: no step changes them (that they stand in State is the model's choice,
logs 1 and 2). -/
def Obligations.StepsKeepTheConfiguration : Prop :=
  ∀ s t : State, step s = .next t → t.depth = s.depth ∧ t.arb = s.arb

/-! ## Runs -/

/-- R9: a schedule is one total order of steps. Presented by its canonical words, before whatever else is presented, it
runs as its operations one after another (what is presented is the model's `inputs`, log 6). -/
def Obligations.PresentedScheduleRunsItsOperations : Prop :=
  ∀ (ops : List Instr) (rest : List Input) (s : State), s.inputs = presented ops ++ rest →
    Sys2Proof.core.run ops.length s = runOps ops { s with inputs := rest }

/-- R59: what the successful `POP`s of a session return, followed by what is still queued, is what was queued before
followed by what was pushed: in order, each exactly once, none invented. -/
def Obligations.PopsReturnThePushedSamplesInOrder : Prop :=
  ∀ (ops : List Instr) (s t : State), Consistent s → s.rstDone = true → .rst ∉ ops → runOps ops s = .next t →
    (along samplesPopped ops s).map int16 ++ t.contents = s.contents ++ along samplesPushed ops s

/-- R52: from a state with `pend = 0`, the samples pushed up to and with an `ENDB` are `decode_buffer` of the bytes
taken, whatever the consumer does in between and however often the producer is held; and `pend` is 0 again (a hold as
a step: log 14). -/
def Obligations.StreamDecodesAsOneBuffer : Prop :=
  ∀ (ops : List Instr) (s : State), Consistent s → s.rstDone = true → s.pend = false →
    (∀ i ∈ ops, i ≠ .endb ∧ i ≠ .rst) →
    ∃ t, runOps (ops ++ [.endb]) s = .next t ∧ t.pend = false ∧
      along samplesPushed (ops ++ [.endb]) s = decodeBuffer (along bytesTaken ops s)

/-- R44, R52: a `LINE` for which there is room appends `decode_buffer` of its bytes to the contents, with no hold. -/
def Obligations.LineAppendsItsDecodedBuffer : Prop :=
  ∀ (bytes : List Byte) (s : State), Consistent s → s.rstDone = true → s.pend = false →
    s.count + bytes.length / 2 ≤ s.depth →
    ∃ t, runOps (lineOps bytes) s = .next t ∧ t.pend = false ∧ t.contents = s.contents ++ decodeBuffer bytes ∧
      along bytesTaken (lineOps bytes) s = bytes

/-- R44: `FILL n` delivers the `n` oldest samples, or all there are, and leaves the rest. -/
def Obligations.FillDeliversTheOldestSamples : Prop :=
  ∀ (n : Nat) (s : State), Consistent s → s.rstDone = true →
    ∃ t xs, fillSlots n s = .next (t, xs) ∧ xs.map int16 = s.contents.take n ∧ t.contents = s.contents.drop n

/-- R62: every run of the block is a run of the machine `U` on the accepted operations: the states agree on `q`, `pend`
and `lo_byte`, and the responses agree. That `lo_byte` agrees after an `RST`, and `rd_data` where `rd_valid = 0`, rests
on the model's choice that equal draw numbers draw equal values (log 3); a hold as a step is log 14. -/
def Obligations.BlockRunsAreUnboundedRuns : Prop :=
  ∀ (ops : List Instr) (s t : State), Consistent s → runOps ops s = .next t →
    ∃ u, urunOps (along acceptedOps ops s) s.unbounded = .next u ∧
      u.q = t.contents ∧ u.pend = t.pend ∧ u.loByte = t.loByte ∧
      ualongAnswers (along acceptedOps ops s) s.unbounded = along acceptedAnswers ops s

/-- R62, the other way: a step of `U` that takes no second byte at `len(q) = DEPTH` is a step of the block. That `lo_byte`
agrees after an `RST`, and `rd_data` where `rd_valid = 0`, rests on the model's choice that equal draw numbers draw
equal values (log 3). -/
def Obligations.FittingUnboundedStepsAreBlockSteps : Prop :=
  ∀ (i : Instr) (s : State) (u : UState), Consistent s → uexec i s.unbounded = .next u →
    ¬ ((∃ d, i = .putb d) ∧ s.pend = true ∧ s.contents.length = s.depth) →
    ∃ t, exec i s = .next t ∧ t.unbounded = u ∧ u.q.length ≤ s.depth

/-- R22: the unspecified values never reach an output: two states that agree but for them show the agents the same
answers and the same status outputs along every schedule. -/
def Obligations.UnspecifiedValuesNeverShow : Prop :=
  ∀ (ops : List Instr) (s t : State), Consistent s → Consistent t → SameButUnspecified s t →
    along visibleStep ops s = along visibleStep ops t

/-- R60, R77 (a hold as a step: log 14): a held `PUTB` is lifted by a successful `POP`, by an `ENDB` and by an `RST`: after each of them the byte
presented again is accepted. -/
def Obligations.HeldPutbIsLifted : Prop :=
  ∀ (d : Byte) (i : Instr) (s : State), Consistent s → s.rstDone = true → s.wrReady = false →
    i = .pop ∨ i = .endb ∨ i = .rst →
    ∃ t u, exec i s = .next t ∧ t.wrReady = true ∧ exec (.putb d) t = .next u ∧ u.reply.taken = .accepted ∧
      (i = .pop → t.reply.delivered = [s.entry s.rp] ∧ u.contents = t.contents ++ [decodeSample s.loByte d])

/-! ## Commands in one clock -/

/-- R68 (1): with `rst = 1` the only step of the clock is `RST`; a write-port command is not accepted and a `POP` is
answered `rd_valid = 0`, with nothing of the block changed by the sampling (that sampling is a step of its own is the
model's, log 8). -/
def Obligations.ResetWinsTheClock : Prop :=
  ∀ (v : BitVec 12) (rest : List Input) (s : State), s.inputs = .clock v :: rest → v.getLsbD 11 = true →
    ∃ t, step s = .next t ∧ t.block = s.block ∧ t.inputs = .command (.reset 1) :: rest ∧
      (t.reply.taken = .held ↔ v.getLsbD 9 = true) ∧ t.reply.taken ≠ .accepted ∧
      (v.getLsbD 10 = true → ∃ x, t.reply.read = some ⟨false, x⟩) ∧
      step t = exec .rst { t with inputs := rest }

/-- R68 (2): with `rst = 0` the commands of the clock come next, before all that is presented later, in the order `ARB`
gives; `either` is one of the two orders. -/
def Obligations.ClockCommandsFollowArb : Prop :=
  ∀ (v : BitVec 12) (rest : List Input) (s : State), s.inputs = .clock v :: rest → v.getLsbD 11 = false →
    ∃ t wr rd, step s = .next t ∧ t.block = s.block ∧
      wr = (if v.getLsbD 9 = true then [.command (.write (BitVec.ofNat 10 v.toNat))] else []) ∧
      rd = (if v.getLsbD 10 = true then [.command (.read 1)] else []) ∧
      (s.arb = .readFirst → t.inputs = rd ++ (wr ++ rest)) ∧
      (s.arb = .writeFirst → t.inputs = wr ++ (rd ++ rest)) ∧
      (s.arb = .either → t.inputs = rd ++ (wr ++ rest) ∨ t.inputs = wr ++ (rd ++ rest))

/-- R68: but for a second byte at an empty or at a full FIFO, a write-port operation and a `POP` commute: both orders
give the same block and the same answers. -/
def Obligations.WriteAndPopCommuteElsewhere : Prop :=
  ∀ (i : Instr) (s : State), i.agent = .producer → Consistent s → s.rstDone = true →
    ¬ ((∃ d, i = .putb d) ∧ s.pend = true ∧ (s.count = 0 ∨ s.count = s.depth)) →
    ∃ t u t' u', exec .pop s = .next t ∧ exec i t = .next u ∧ exec i s = .next t' ∧ exec .pop t' = .next u' ∧
      u.block = u'.block ∧ u.draws = u'.draws ∧ t.reply.visible = u'.reply.visible ∧ u.reply = t'.reply

/-- R68: a second byte and a `POP` at an empty FIFO: written first, the `POP` returns the sample just completed; read
first, it finds nothing and the sample is queued afterwards. -/
def Obligations.OrderMattersAtAnEmptyFifo : Prop :=
  ∀ (d : Byte) (s : State), Consistent s → s.rstDone = true → s.pend = true → s.count = 0 →
    (∃ t u, exec (.putb d) s = .next t ∧ exec .pop t = .next u ∧
      u.reply.read = some ⟨true, bits16 (decodeSample s.loByte d)⟩ ∧ u.contents = []) ∧
    (∃ t u x, exec .pop s = .next t ∧ t.reply.read = some ⟨false, x⟩ ∧ exec (.putb d) t = .next u ∧
      u.contents = [decodeSample s.loByte d])

/-- R68: a second byte and a `POP` at a full FIFO: read first, the `POP` makes room and the byte is accepted; written
first, the byte is held and the `POP` succeeds (a hold as a step: log 14). -/
def Obligations.OrderMattersAtAFullFifo : Prop :=
  ∀ (d : Byte) (s : State), Consistent s → s.rstDone = true → s.pend = true → s.count = s.depth →
    (∃ t u, exec .pop s = .next t ∧ t.reply.delivered = [s.entry s.rp] ∧ exec (.putb d) t = .next u ∧
      u.reply.taken = .accepted ∧ u.count = s.depth ∧
      u.contents = s.contents.tail ++ [decodeSample s.loByte d]) ∧
    (∃ t u, exec (.putb d) s = .next t ∧ t.reply.taken = .held ∧ exec .pop t = .next u ∧
      u.reply.delivered = [s.entry s.rp] ∧ u.pend = true ∧ u.contents = s.contents.tail ∧ u.wrReady = true)

/-! ## A line among the steps of the other agents -/

/-- R44, R52: a `LINE` gone through in any turns of the producer, with consumer operations and `WNOP` between them, a held
`PUTB` presented again: no byte is lost, skipped or taken twice, and once nothing is left, what was pushed is
`decode_buffer` of its bytes and `pend` is 0 again (a hold as a step: log 14). -/
def Obligations.LineIsPresentedUntilAccepted : Prop :=
  ∀ (bytes : List Byte) (turns : List Turn) (s : State), Consistent s → s.rstDone = true → s.pend = false →
    (∀ i, Turn.other i ∈ turns → i.agent = .consumer ∨ i = .wnop) →
    ∃ t left taken rest ops, (Source.line bytes).run turns s = .next (t, left) ∧
      ops = (Source.line bytes).schedule turns s ∧ runOps ops s = .next t ∧
      taken = along bytesTaken ops s ∧ taken ++ rest = bytes ∧ (left = lineOps rest ∨ (left = [] ∧ rest = [])) ∧
      (along samplesPopped ops s).map int16 ++ t.contents = s.contents ++ along samplesPushed ops s ∧
      (left = [] → t.pend = false ∧ along samplesPushed ops s = decodeBuffer bytes)

/-- R44, R77: with a `POP` after each of the producer's turns a `LINE` is done, however full the FIFO was and however long
the line, with at most one turn lost to a hold; with no `POP` a held byte stays presented, the block unchanged. -/
def Obligations.HeldLineWaitsForThePop : Prop :=
  (∀ (bytes : List Byte) (n : Nat) (s : State), Consistent s → s.rstDone = true → bytes.length + 2 ≤ n →
    ∃ t, (Source.line bytes).run (List.replicate n [Turn.own, Turn.other .pop]).flatten s = .next (t, [])) ∧
  (∀ (d : Byte) (bytes : List Byte) (n : Nat) (s : State), s.rstDone = true → s.wrReady = false →
    ∃ t, (Source.line (d :: bytes)).run (List.replicate n Turn.own) s = .next (t, lineOps (d :: bytes)) ∧
      t.block = s.block)
end

