-- ==== Sys2Proof/Laws/Codec.lean ====
section
/-! SUPPORT. The small lemmas of the codec's functions and of the two views of a sample. -/

namespace Sys2Proof.Machine

/-- The signed value of a pattern is Lean's own. -/
theorem int16_eq_toInt (p : Sample) : int16 p = p.toInt := by
  unfold int16
  rw [BitVec.toInt_eq_toNat_cond]
  have := p.isLt
  split <;> split <;> omega

/-- A pattern is the pattern of its value. -/
@[simp] theorem bits16_int16 (p : Sample) : bits16 (int16 p) = p := by
  rw [int16_eq_toInt, bits16, BitVec.ofInt_toInt]

/-- A value in the range of `s16` is the value of its pattern. -/
theorem int16_bits16 (x : Int) (h1 : -32768 ≤ x) (h2 : x < 32768) : int16 (bits16 x) = x := by
  rw [int16_eq_toInt, bits16, BitVec.toInt_ofInt]
  exact Int.bmod_eq_of_le (by norm_num; omega) (by norm_num; omega)

@[simp] theorem decodeBuffer_nil : decodeBuffer [] = [] := rfl
@[simp] theorem decodeBuffer_one (b : Byte) : decodeBuffer [b] = [] := rfl
@[simp] theorem decodeBuffer_pair (low high : Byte) (rest : List Byte) :
    decodeBuffer (low :: high :: rest) = decodeSample low high :: decodeBuffer rest := rfl

end Sys2Proof.Machine
end

