-- ==== Sys2Proof/Laws/State.lean ====
section
/-! SUPPORT. What each named change of the state does to each field: one lemma per field per change, each true by
unfolding, so that no later proof unfolds a record update. -/

namespace Sys2Proof.Machine

/-! ## answer -/

@[simp] theorem State.answer_loByte (s : State) (r : Reply) : (s.answer r).loByte = s.loByte := rfl
@[simp] theorem State.answer_pend (s : State) (r : Reply) : (s.answer r).pend = s.pend := rfl
@[simp] theorem State.answer_mem (s : State) (r : Reply) : (s.answer r).mem = s.mem := rfl
@[simp] theorem State.answer_wp (s : State) (r : Reply) : (s.answer r).wp = s.wp := rfl
@[simp] theorem State.answer_rp (s : State) (r : Reply) : (s.answer r).rp = s.rp := rfl
@[simp] theorem State.answer_count (s : State) (r : Reply) : (s.answer r).count = s.count := rfl
@[simp] theorem State.answer_depth (s : State) (r : Reply) : (s.answer r).depth = s.depth := rfl
@[simp] theorem State.answer_arb (s : State) (r : Reply) : (s.answer r).arb = s.arb := rfl
@[simp] theorem State.answer_rstDone (s : State) (r : Reply) : (s.answer r).rstDone = s.rstDone := rfl
@[simp] theorem State.answer_inputs (s : State) (r : Reply) : (s.answer r).inputs = s.inputs := rfl
@[simp] theorem State.answer_reply (s : State) (r : Reply) : (s.answer r).reply = r := rfl
@[simp] theorem State.answer_draws (s : State) (r : Reply) : (s.answer r).draws = s.draws := rfl
@[simp] theorem State.answer_memDraw (s : State) (r : Reply) : (s.answer r).memDraw = s.memDraw := rfl

/-! ## withInputs -/

@[simp] theorem State.withInputs_loByte (s : State) (l : List Input) : (s.withInputs l).loByte = s.loByte := rfl
@[simp] theorem State.withInputs_pend (s : State) (l : List Input) : (s.withInputs l).pend = s.pend := rfl
@[simp] theorem State.withInputs_mem (s : State) (l : List Input) : (s.withInputs l).mem = s.mem := rfl
@[simp] theorem State.withInputs_wp (s : State) (l : List Input) : (s.withInputs l).wp = s.wp := rfl
@[simp] theorem State.withInputs_rp (s : State) (l : List Input) : (s.withInputs l).rp = s.rp := rfl
@[simp] theorem State.withInputs_count (s : State) (l : List Input) : (s.withInputs l).count = s.count := rfl
@[simp] theorem State.withInputs_depth (s : State) (l : List Input) : (s.withInputs l).depth = s.depth := rfl
@[simp] theorem State.withInputs_arb (s : State) (l : List Input) : (s.withInputs l).arb = s.arb := rfl
@[simp] theorem State.withInputs_rstDone (s : State) (l : List Input) : (s.withInputs l).rstDone = s.rstDone := rfl
@[simp] theorem State.withInputs_inputs (s : State) (l : List Input) : (s.withInputs l).inputs = l := rfl
@[simp] theorem State.withInputs_reply (s : State) (l : List Input) : (s.withInputs l).reply = s.reply := rfl
@[simp] theorem State.withInputs_draws (s : State) (l : List Input) : (s.withInputs l).draws = s.draws := rfl
@[simp] theorem State.withInputs_memDraw (s : State) (l : List Input) : (s.withInputs l).memDraw = s.memDraw := rfl

/-! ## drawn -/

@[simp] theorem State.drawn_loByte (s : State) : (s.drawn).loByte = s.loByte := rfl
@[simp] theorem State.drawn_pend (s : State) : (s.drawn).pend = s.pend := rfl
@[simp] theorem State.drawn_mem (s : State) : (s.drawn).mem = s.mem := rfl
@[simp] theorem State.drawn_wp (s : State) : (s.drawn).wp = s.wp := rfl
@[simp] theorem State.drawn_rp (s : State) : (s.drawn).rp = s.rp := rfl
@[simp] theorem State.drawn_count (s : State) : (s.drawn).count = s.count := rfl
@[simp] theorem State.drawn_depth (s : State) : (s.drawn).depth = s.depth := rfl
@[simp] theorem State.drawn_arb (s : State) : (s.drawn).arb = s.arb := rfl
@[simp] theorem State.drawn_rstDone (s : State) : (s.drawn).rstDone = s.rstDone := rfl
@[simp] theorem State.drawn_inputs (s : State) : (s.drawn).inputs = s.inputs := rfl
@[simp] theorem State.drawn_reply (s : State) : (s.drawn).reply = s.reply := rfl
@[simp] theorem State.drawn_draws (s : State) : (s.drawn).draws = s.draws + 1 := rfl
@[simp] theorem State.drawn_memDraw (s : State) : (s.drawn).memDraw = s.memDraw := rfl

/-! ## keepByte -/

@[simp] theorem State.keepByte_loByte (s : State) (d : Byte) : (s.keepByte d).loByte = d := rfl
@[simp] theorem State.keepByte_pend (s : State) (d : Byte) : (s.keepByte d).pend = true := rfl
@[simp] theorem State.keepByte_mem (s : State) (d : Byte) : (s.keepByte d).mem = s.mem := rfl
@[simp] theorem State.keepByte_wp (s : State) (d : Byte) : (s.keepByte d).wp = s.wp := rfl
@[simp] theorem State.keepByte_rp (s : State) (d : Byte) : (s.keepByte d).rp = s.rp := rfl
@[simp] theorem State.keepByte_count (s : State) (d : Byte) : (s.keepByte d).count = s.count := rfl
@[simp] theorem State.keepByte_depth (s : State) (d : Byte) : (s.keepByte d).depth = s.depth := rfl
@[simp] theorem State.keepByte_arb (s : State) (d : Byte) : (s.keepByte d).arb = s.arb := rfl
@[simp] theorem State.keepByte_rstDone (s : State) (d : Byte) : (s.keepByte d).rstDone = s.rstDone := rfl
@[simp] theorem State.keepByte_inputs (s : State) (d : Byte) : (s.keepByte d).inputs = s.inputs := rfl
@[simp] theorem State.keepByte_reply (s : State) (d : Byte) : (s.keepByte d).reply = s.reply := rfl
@[simp] theorem State.keepByte_draws (s : State) (d : Byte) : (s.keepByte d).draws = s.draws := rfl
@[simp] theorem State.keepByte_memDraw (s : State) (d : Byte) : (s.keepByte d).memDraw = s.memDraw := rfl

/-! ## clearPend -/

@[simp] theorem State.clearPend_loByte (s : State) : (s.clearPend).loByte = s.loByte := rfl
@[simp] theorem State.clearPend_pend (s : State) : (s.clearPend).pend = false := rfl
@[simp] theorem State.clearPend_mem (s : State) : (s.clearPend).mem = s.mem := rfl
@[simp] theorem State.clearPend_wp (s : State) : (s.clearPend).wp = s.wp := rfl
@[simp] theorem State.clearPend_rp (s : State) : (s.clearPend).rp = s.rp := rfl
@[simp] theorem State.clearPend_count (s : State) : (s.clearPend).count = s.count := rfl
@[simp] theorem State.clearPend_depth (s : State) : (s.clearPend).depth = s.depth := rfl
@[simp] theorem State.clearPend_arb (s : State) : (s.clearPend).arb = s.arb := rfl
@[simp] theorem State.clearPend_rstDone (s : State) : (s.clearPend).rstDone = s.rstDone := rfl
@[simp] theorem State.clearPend_inputs (s : State) : (s.clearPend).inputs = s.inputs := rfl
@[simp] theorem State.clearPend_reply (s : State) : (s.clearPend).reply = s.reply := rfl
@[simp] theorem State.clearPend_draws (s : State) : (s.clearPend).draws = s.draws := rfl
@[simp] theorem State.clearPend_memDraw (s : State) : (s.clearPend).memDraw = s.memDraw := rfl

/-! ## push -/

@[simp] theorem State.push_loByte (s : State) (x : Int) : (s.push x).loByte = s.loByte := rfl
@[simp] theorem State.push_pend (s : State) (x : Int) : (s.push x).pend = s.pend := rfl
@[simp] theorem State.push_mem (s : State) (x : Int) : (s.push x).mem = s.mem.write s.wp (bits16 x) := rfl
@[simp] theorem State.push_wp (s : State) (x : Int) : (s.push x).wp = s.nextIndex s.wp := rfl
@[simp] theorem State.push_rp (s : State) (x : Int) : (s.push x).rp = s.rp := rfl
@[simp] theorem State.push_count (s : State) (x : Int) : (s.push x).count = s.count + 1 := rfl
@[simp] theorem State.push_depth (s : State) (x : Int) : (s.push x).depth = s.depth := rfl
@[simp] theorem State.push_arb (s : State) (x : Int) : (s.push x).arb = s.arb := rfl
@[simp] theorem State.push_rstDone (s : State) (x : Int) : (s.push x).rstDone = s.rstDone := rfl
@[simp] theorem State.push_inputs (s : State) (x : Int) : (s.push x).inputs = s.inputs := rfl
@[simp] theorem State.push_reply (s : State) (x : Int) : (s.push x).reply = s.reply := rfl
@[simp] theorem State.push_draws (s : State) (x : Int) : (s.push x).draws = s.draws := rfl
@[simp] theorem State.push_memDraw (s : State) (x : Int) : (s.push x).memDraw = s.memDraw := rfl

/-! ## dropOldest -/

@[simp] theorem State.dropOldest_loByte (s : State) : (s.dropOldest).loByte = s.loByte := rfl
@[simp] theorem State.dropOldest_pend (s : State) : (s.dropOldest).pend = s.pend := rfl
@[simp] theorem State.dropOldest_mem (s : State) : (s.dropOldest).mem = s.mem := rfl
@[simp] theorem State.dropOldest_wp (s : State) : (s.dropOldest).wp = s.wp := rfl
@[simp] theorem State.dropOldest_rp (s : State) : (s.dropOldest).rp = s.nextIndex s.rp := rfl
@[simp] theorem State.dropOldest_count (s : State) : (s.dropOldest).count = s.count - 1 := rfl
@[simp] theorem State.dropOldest_depth (s : State) : (s.dropOldest).depth = s.depth := rfl
@[simp] theorem State.dropOldest_arb (s : State) : (s.dropOldest).arb = s.arb := rfl
@[simp] theorem State.dropOldest_rstDone (s : State) : (s.dropOldest).rstDone = s.rstDone := rfl
@[simp] theorem State.dropOldest_inputs (s : State) : (s.dropOldest).inputs = s.inputs := rfl
@[simp] theorem State.dropOldest_reply (s : State) : (s.dropOldest).reply = s.reply := rfl
@[simp] theorem State.dropOldest_draws (s : State) : (s.dropOldest).draws = s.draws := rfl
@[simp] theorem State.dropOldest_memDraw (s : State) : (s.dropOldest).memDraw = s.memDraw := rfl

/-! ## cleared -/

@[simp] theorem State.cleared_loByte (s : State) : (s.cleared).loByte = Config.unspecifiedByte s.draws := rfl
@[simp] theorem State.cleared_pend (s : State) : (s.cleared).pend = false := rfl
@[simp] theorem State.cleared_mem (s : State) : (s.cleared).mem = [] := rfl
@[simp] theorem State.cleared_wp (s : State) : (s.cleared).wp = 0 := rfl
@[simp] theorem State.cleared_rp (s : State) : (s.cleared).rp = 0 := rfl
@[simp] theorem State.cleared_count (s : State) : (s.cleared).count = 0 := rfl
@[simp] theorem State.cleared_depth (s : State) : (s.cleared).depth = s.depth := rfl
@[simp] theorem State.cleared_arb (s : State) : (s.cleared).arb = s.arb := rfl
@[simp] theorem State.cleared_rstDone (s : State) : (s.cleared).rstDone = true := rfl
@[simp] theorem State.cleared_inputs (s : State) : (s.cleared).inputs = s.inputs := rfl
@[simp] theorem State.cleared_reply (s : State) : (s.cleared).reply = s.reply := rfl
@[simp] theorem State.cleared_draws (s : State) : (s.cleared).draws = s.draws + 1 := rfl
@[simp] theorem State.cleared_memDraw (s : State) : (s.cleared).memDraw = s.draws := rfl

/-! ## Reset -/

@[simp] theorem State.reset_pend : State.reset.pend = false := rfl
@[simp] theorem State.reset_mem : State.reset.mem = [] := rfl
@[simp] theorem State.reset_wp : State.reset.wp = 0 := rfl
@[simp] theorem State.reset_rp : State.reset.rp = 0 := rfl
@[simp] theorem State.reset_count : State.reset.count = 0 := rfl
@[simp] theorem State.reset_depth : State.reset.depth = Config.depth := rfl
@[simp] theorem State.reset_arb : State.reset.arb = .either := rfl
@[simp] theorem State.reset_rstDone : State.reset.rstDone = true := rfl
@[simp] theorem State.reset_inputs : State.reset.inputs = [] := rfl

/-! ## Values computed from the state -/

@[simp] theorem State.entry_answer (s : State) (r : Reply) (i : Nat) : (s.answer r).entry i = s.entry i := rfl
@[simp] theorem State.entry_withInputs (s : State) (l : List Input) (i : Nat) : (s.withInputs l).entry i = s.entry i := rfl
@[simp] theorem State.entry_drawn (s : State) (i : Nat) : s.drawn.entry i = s.entry i := rfl
@[simp] theorem State.entry_keepByte (s : State) (d : Byte) (i : Nat) : (s.keepByte d).entry i = s.entry i := rfl
@[simp] theorem State.entry_clearPend (s : State) (i : Nat) : s.clearPend.entry i = s.entry i := rfl
@[simp] theorem State.entry_dropOldest (s : State) (i : Nat) : s.dropOldest.entry i = s.entry i := rfl
@[simp] theorem State.contents_answer (s : State) (r : Reply) : (s.answer r).contents = s.contents := rfl
@[simp] theorem State.contents_withInputs (s : State) (l : List Input) : (s.withInputs l).contents = s.contents := rfl
@[simp] theorem State.contents_drawn (s : State) : s.drawn.contents = s.contents := rfl
@[simp] theorem State.contents_keepByte (s : State) (d : Byte) : (s.keepByte d).contents = s.contents := rfl
@[simp] theorem State.contents_clearPend (s : State) : s.clearPend.contents = s.contents := rfl
@[simp] theorem State.contents_cleared (s : State) : s.cleared.contents = [] := rfl

/-- "`len(q) = count`" (10_state.md R15). -/
@[simp] theorem State.contents_length (s : State) : s.contents.length = s.count := by simp [State.contents]

end Sys2Proof.Machine
end

