-- ==== Sys2Proof/Laws/Memory.lean ====
section
/-! SUPPORT. The storage: reading after writing, and the canonical form that every operation keeps. -/

namespace Sys2Proof.Machine

@[simp] theorem Memory.read_nil (i : Nat) : Memory.read [] i = none := rfl

/-- A write is read back at its index and nowhere else. -/
theorem Memory.read_write (m : Memory) (hm : m.wf = true) (i j : Nat) (v : Sample) :
    (m.write i v).read j = if j = i then some v else m.read j := by
  induction m with
  | nil => simp [Memory.write, Memory.read]
  | cons c rest ih =>
    obtain ⟨k, x⟩ := c
    have hrest : Memory.wf rest = true := by
      cases rest with
      | nil => rfl
      | cons d r => simp [Memory.wf] at hm; exact hm.2
    by_cases h1 : i < k
    · simp [Memory.write, h1, Memory.read]
    · by_cases h2 : i = k
      · subst h2; by_cases h3 : j = i <;> simp [Memory.write, Memory.read, h3]
      · by_cases h3 : j = k
        · subst h3; simp [Memory.write, Memory.read, h1, h2, Ne.symm h2]
        · simp [Memory.write, Memory.read, h1, h2, h3, ih hrest]

/-- The first cell after a write is the old first cell or the written one. -/
theorem Memory.write_head (m : Memory) (i : Nat) (v : Sample) :
    ∃ c rest, m.write i v = c :: rest ∧ (c = (i, v) ∨ ∃ r, m = c :: r) := by
  cases m with
  | nil => exact ⟨_, _, rfl, .inl rfl⟩
  | cons c rest =>
    obtain ⟨k, x⟩ := c
    by_cases h1 : i < k
    · exact ⟨(i, v), (k, x) :: rest, by simp [Memory.write, h1], .inl rfl⟩
    · by_cases h2 : i = k
      · exact ⟨(i, v), rest, by simp [Memory.write, h2], .inl rfl⟩
      · exact ⟨(k, x), Memory.write rest i v, by simp [Memory.write, h1, h2], .inr ⟨_, rfl⟩⟩

/-- The canonical form, one cell at a time. -/
theorem Memory.wf_cons (c : Cell) (m : Memory) :
    Memory.wf (c :: m) = true ↔ (∀ d r, m = d :: r → c.1 < d.1) ∧ Memory.wf m = true := by
  cases m with
  | nil => simp [Memory.wf]
  | cons d r => simp [Memory.wf]

/-- A write keeps the canonical form. -/
theorem Memory.write_wf (m : Memory) (hm : m.wf = true) (i : Nat) (v : Sample) : (m.write i v).wf = true := by
  induction m with
  | nil => rfl
  | cons c rest ih =>
    obtain ⟨k, x⟩ := c
    obtain ⟨hc, hrest⟩ := (Memory.wf_cons _ _).mp hm
    by_cases h1 : i < k
    · simp only [Memory.write, h1, if_true]
      exact (Memory.wf_cons _ _).mpr ⟨by rintro d r h; cases h; exact h1, hm⟩
    · by_cases h2 : i = k
      · subst h2
        simp only [Memory.write, h1, if_true, if_false]
        exact (Memory.wf_cons _ _).mpr ⟨hc, hrest⟩
      · simp only [Memory.write, h1, h2, if_false]
        refine (Memory.wf_cons _ _).mpr ⟨?_, ih hrest⟩
        intro d r h
        obtain ⟨c', rest', he, hor⟩ := Memory.write_head rest i v
        rw [he] at h
        cases h
        rcases hor with rfl | ⟨r', hr'⟩
        · show k < i; omega
        · exact hc _ _ hr'

/-- What is listed after a write is the written cell or was listed before. -/
theorem Memory.of_mem_write (m : Memory) (i : Nat) (v : Sample) (c : Cell) (h : c ∈ m.write i v) :
    c = (i, v) ∨ c ∈ m := by
  induction m with
  | nil => simpa [Memory.write] using h
  | cons d rest ih =>
    obtain ⟨k, x⟩ := d
    by_cases h1 : i < k
    · simpa [Memory.write, h1] using h
    · by_cases h2 : i = k
      · subst h2
        simp only [Memory.write, h1, if_true, if_false, List.mem_cons] at h ⊢
        tauto
      · simp only [Memory.write, h1, h2, if_false, List.mem_cons] at h ⊢
        tauto

/-- The storage after reset has the canonical form. -/
theorem reset_mem_wf : State.reset.mem.wf = true := rfl

/-- A push is read back at `wp`; every other entry is as before. -/
theorem State.entry_push (s : State) (hm : s.mem.wf = true) (x : Int) (i : Nat) :
    (s.push x).entry i = if i = s.wp then bits16 x else s.entry i := by
  simp only [State.entry, State.push_mem, State.push_memDraw, Memory.read_write _ hm]
  split <;> simp

end Sys2Proof.Machine
end

