-- ==== Sys2Proof/Laws/Ops.lean ====
section
/-! SUPPORT. One lemma for each shared operation that says once everything it can do, and the inversion of `exec` and
`step` that later proofs cite instead of unfolding them. -/

namespace Sys2Proof.Machine

/-- The only refusal of the spec: the next state is the one given, and a reset has happened. -/
theorem afterFirstReset_eq_next (s t u : State) :
    afterFirstReset s t = .next u ↔ s.rstDone = true ∧ u = t := by
  unfold afterFirstReset
  by_cases h : s.rstDone = true <;> simp [h, eq_comm]

/-- After the first reset the next state is the one given. -/
@[simp] theorem afterFirstReset_of_rstDone (s t : State) (h : s.rstDone = true) : afterFirstReset s t = .next t := by
  simp [afterFirstReset, h]

/-- Before the first reset the answer is the refusal. -/
@[simp] theorem afterFirstReset_of_not_rstDone (s t : State) (h : s.rstDone = false) :
    afterFirstReset s t = .refused .beforeFirstReset := by
  simp [afterFirstReset, h]

/-- What a `PUTB` does with its byte: it is held, kept, or pushed with the kept one. -/
theorem State.takeByte_cases (s : State) (d : Byte) :
    (s.pend = true ∧ s.count = s.depth ∧ s.takeByte d = s.answer Reply.held) ∨
    (s.pend = false ∧ s.takeByte d = (s.keepByte d).answer Reply.accepted) ∨
    (s.pend = true ∧ s.count ≠ s.depth ∧
      s.takeByte d = ((s.push (decodeSample s.loByte d)).clearPend).answer Reply.accepted) := by
  unfold State.takeByte
  by_cases hp : s.pend = true <;> by_cases hc : s.count = s.depth <;> simp_all

/-- What a `POP` does: nothing on an empty FIFO, else the oldest sample leaves. -/
theorem State.takeSample_cases (s : State) :
    (s.count = 0 ∧ s.takeSample = s.answerNoSample) ∨
    (s.count ≠ 0 ∧ s.takeSample = s.dropOldest.answer (Reply.sample s.oldest)) := by
  unfold State.takeSample
  by_cases hc : s.count = 0 <;> simp [hc]

/-- The status output `wr_ready` in the terms of R16. -/
theorem State.wrReady_eq_false (s : State) : s.wrReady = false ↔ s.pend = true ∧ s.count = s.depth := by
  simp [State.wrReady]

/-- Everything `exec` can do: `RST` clears the block; any other operation is refused before the first reset, and after
it holds, keeps, pushes, forgets, delivers or changes nothing. -/
theorem exec_cases (i : Instr) (s t : State) (h : exec i s = .next t) :
    (i = .rst ∧ t = s.cleared.answer Reply.accepted) ∨
    (s.rstDone = true ∧
      ((i = .wnop ∧ t = s.answer Reply.accepted) ∨
       (i = .endb ∧ t = s.clearPend.answer Reply.accepted) ∨
       (i = .rnop ∧ t = s.answerNoSample) ∨
       (i = .pop ∧ s.count = 0 ∧ t = s.answerNoSample) ∨
       (i = .pop ∧ s.count ≠ 0 ∧ t = s.dropOldest.answer (Reply.sample s.oldest)) ∨
       (∃ d, i = .putb d ∧ s.pend = true ∧ s.count = s.depth ∧ t = s.answer Reply.held) ∨
       (∃ d, i = .putb d ∧ s.pend = false ∧ t = (s.keepByte d).answer Reply.accepted) ∨
       (∃ d, i = .putb d ∧ s.pend = true ∧ s.count ≠ s.depth ∧
         t = ((s.push (decodeSample s.loByte d)).clearPend).answer Reply.accepted))) := by
  cases i with
  | wnop => obtain ⟨hr, rfl⟩ := (afterFirstReset_eq_next _ _ _).mp h; simp [hr]
  | endb => obtain ⟨hr, rfl⟩ := (afterFirstReset_eq_next _ _ _).mp h; simp [hr]
  | rnop => obtain ⟨hr, rfl⟩ := (afterFirstReset_eq_next _ _ _).mp h; simp [hr]
  | pop =>
    obtain ⟨hr, rfl⟩ := (afterFirstReset_eq_next _ _ _).mp h
    rcases s.takeSample_cases with ⟨hc, ht⟩ | ⟨hc, ht⟩ <;> simp [hr, hc, ht]
  | putb d =>
    obtain ⟨hr, rfl⟩ := (afterFirstReset_eq_next _ _ _).mp h
    rcases s.takeByte_cases d with ⟨hp, hc, ht⟩ | ⟨hp, ht⟩ | ⟨hp, hc, ht⟩ <;> simp [byteOperand, *]
  | rst => left; exact ⟨rfl, by simpa [exec, execRst] using h.symm⟩

/-- Everything a step can do: nothing is presented, a clock is sampled, a command is no operation, or its operation
runs on the state without it. -/
theorem step_cases (s t : State) (h : step s = .next t) :
    (s.inputs = [] ∧ t = s.answer Reply.nothing) ∨
    (∃ v rest, s.inputs = .clock v :: rest ∧ t = (s.withInputs rest).sampleClock v) ∨
    (∃ c e rest, s.inputs = .command c :: rest ∧ decode c = .error e ∧ t = (s.withInputs rest).answer Reply.nothing) ∨
    (∃ c i rest, s.inputs = .command c :: rest ∧ decode c = .ok i ∧ exec i (s.withInputs rest) = .next t) := by
  unfold step at h
  split at h
  · next h0 => left; exact ⟨h0, by simpa using h.symm⟩
  · next v rest h0 => right; left; exact ⟨v, rest, h0, by simpa using h.symm⟩
  · next c rest h0 =>
    split at h
    · next i hd => right; right; right; exact ⟨c, i, rest, h0, hd, h⟩
    · next e hd => right; right; left; exact ⟨c, e, rest, h0, hd, by simpa using h.symm⟩

/-- Sampling a clock changes nothing but the model's own fields. -/
theorem State.sampleClock_block (s : State) (v : BitVec 12) : (s.sampleClock v).block = s.block := by
  unfold State.sampleClock
  split <;> rfl

end Sys2Proof.Machine
end

