-- ==== Sys2Proof/Laws/PerInstr.lean ====
section
/-! SUPPORT. What holds of each operation as syntax, one lemma for each constructor. -/

namespace Sys2Proof.Laws

/-- The canonical word of an operation selects the row the opcode table gives it, on the port of the agent that may
issue it (30_encoding.md R40, 60_exceptions.md R70). -/
def CanonicalWord.Statement (i : Instr) : Prop :=
  i.wellFormed = true ∧ i.opcodeRow.selects (encode i) = true ∧ i.agent.mayPresent (encode i) = true

theorem CanonicalWord.wnop : CanonicalWord.Statement .wnop := by unfold CanonicalWord.Statement; decide
theorem CanonicalWord.putb (d : Byte) : CanonicalWord.Statement (.putb d) := by
  refine ⟨rfl, ?_, rfl⟩
  revert d
  decide
theorem CanonicalWord.endb : CanonicalWord.Statement .endb := by unfold CanonicalWord.Statement; decide
theorem CanonicalWord.rnop : CanonicalWord.Statement .rnop := by unfold CanonicalWord.Statement; decide
theorem CanonicalWord.pop : CanonicalWord.Statement .pop := by unfold CanonicalWord.Statement; decide
theorem CanonicalWord.rst : CanonicalWord.Statement .rst := by unfold CanonicalWord.Statement; decide

end Sys2Proof.Laws
end

