-- ==== Sys2Proof/Laws/Schedule.lean ====
section
/-! SUPPORT. What going through a line among the other agents' steps can do: one lemma for each kind of turn, and the two
ways to read a line's run. -/

namespace Sys2Proof.Machine

/-- A turn of another agent is that agent's step, and leaves the line as it was. -/
theorem Source.runFrom_other (src : Source) (turns : List Turn) (todo : List Instr) (j : Instr) (s t : State)
    (h : exec j s = .next t) : src.runFrom (.other j :: turns) todo s = src.runFrom turns todo t := by
  simp [Source.runFrom, Turn.operation, Source.left, h]

/-- An own turn with nothing left passes. -/
@[simp] theorem Source.runFrom_done (src : Source) (turns : List Turn) (s : State) :
    src.runFrom (.own :: turns) [] s = src.runFrom turns [] s := rfl

/-- An own turn whose operation is held presents the same operation in the next own turn. -/
theorem Source.runFrom_held (src : Source) (turns : List Turn) (i : Instr) (todo : List Instr) (s t : State)
    (h : exec i s = .next t) (ht : t.reply.taken = .held) :
    src.runFrom (.own :: turns) (i :: todo) s = src.runFrom turns (i :: todo) t := by
  simp [Source.runFrom, Turn.operation, Source.left, h, ht]

/-- An own turn whose operation is accepted goes on to the next operation, but for a `FILL` that found nothing. -/
theorem Source.runFrom_accepted (src : Source) (turns : List Turn) (i : Instr) (todo : List Instr) (s t : State)
    (h : exec i s = .next t) (ht : t.reply.taken ≠ .held) (hf : (∀ n, src ≠ .fill n) ∨ t.reply.delivered ≠ []) :
    src.runFrom (.own :: turns) (i :: todo) s = src.runFrom turns todo t := by
  rcases hf with hf | hf <;> cases src <;> simp_all [Source.runFrom, Turn.operation, Source.left]

/-- A line's run is the run of the schedule it makes. -/
theorem Source.runOps_scheduleFrom (src : Source) (turns : List Turn) (todo left : List Instr) (s t : State)
    (h : src.runFrom turns todo s = .next (t, left)) : runOps (src.scheduleFrom turns todo s) s = .next t := by
  induction turns generalizing todo s with
  | nil => cases h; rfl
  | cons turn turns ih =>
    simp only [Source.runFrom] at h
    simp only [Source.scheduleFrom]
    cases ho : turn.operation todo with
    | none => simp only [ho] at h; exact ih _ _ h
    | some i =>
      cases hu : exec i s with
      | next u => simp only [ho, hu] at h; simp only [hu, runOps]; exact ih _ _ h
      | fault f => simp only [ho, hu] at h; cases h
      | refused r => simp only [ho, hu] at h; cases h

/-- `FILL n` with nothing between its own steps is `fillSlots n`. -/
theorem fillSlots_eq_runFrom (m n : Nat) (s t : State) (xs : List Sample) (h : fillSlots n s = .next (t, xs)) :
    (Source.fill m).runFrom (List.replicate n .own) (popnOps n) s = .next (t, []) := by
  have done : ∀ (k : Nat) (u : State), (Source.fill m).runFrom (List.replicate k .own) [] u = .next (u, []) := by
    intro k u
    induction k with
    | zero => rfl
    | succ k ih => exact ih
  induction n generalizing s xs with
  | zero => cases h; rfl
  | succ n ih =>
    unfold fillSlots at h
    split at h
    · next u hu =>
      have hh : u.reply.taken ≠ .held := by
        obtain ⟨_, rfl⟩ := (afterFirstReset_eq_next _ _ _).mp hu
        rcases s.takeSample_cases with ⟨_, he⟩ | ⟨_, he⟩ <;> simp [he, Reply.sample, State.answerNoSample, Reply.noSample]
      split at h
      · next hd =>
        cases h
        simp only [List.replicate_succ, popnOps, Source.runFrom, Turn.operation, List.head?_cons, hu, Source.left, hh, hd,
          if_true, if_false]
        exact done n _
      · next x ys hd =>
        split at h
        · next v zs hv =>
          cases h
          rw [popnOps, List.replicate_succ, List.replicate_succ,
            Source.runFrom_accepted _ _ _ _ _ _ hu hh (.inr (by simp [hd]))]
          exact ih _ _ hv
        · cases h
        · cases h
    · cases h
    · cases h

end Sys2Proof.Machine
end

