-- ==== Sys2Proof/Tests/Slice0.lean ====
section
/-! SUPPORT. Tests: terms the checks refuse, words written out from the spec's encodings, at most two small steps for each
operation with the values of 95_test_vectors.md, and for every statement with hypotheses a state that meets them. -/

namespace Sys2Proof.Machine.Tests

/-! ## Helpers -/

/-- A small state after a reset. -/
def small (depth : Nat) (mem : Memory) (wp rp count : Nat) (pend : Bool) (lo : Byte) : State :=
  ⟨lo, pend, mem, wp, rp, count, depth, .either, true, [], Reply.nothing, 5, 4⟩

/-- Just reset, `DEPTH = 2` (V-W1). -/
def fresh : State := small 2 [] 0 0 0 false 0

/-- An empty FIFO and half a pair (V-A1). -/
def emptyHalf : State := small 2 [] 0 0 0 true 0x41

/-- One sample and half a pair (V-A3). -/
def oneHalf : State := small 2 [(0, 0x8000)] 1 0 1 true 0x41

/-- A full FIFO and no pair begun (V-W4). -/
def fullIdle : State := small 2 [(0, 0x8000), (1, 0x7FF0)] 0 0 2 false 0

/-- A full FIFO and half a pair, `wr_ready = 0` (V-A2). -/
def fullHalf : State := small 2 [(0, 0x8000), (1, 0x7FF0)] 0 0 2 true 0x41

/-- The smallest FIFO, full, half a pair (V-X4). -/
def depthOne : State := small 1 [(0, 0x8010)] 0 0 1 true 0x42

/-- `DEPTH = 3`, both pointers at the last entry, empty (V-F11). -/
def lastEntry : State := small 3 [] 2 2 0 true 0x41

/-- Power has just been applied: nothing need be consistent (10_state.md R21). -/
def powerOn : State := { small 2 [] 1 0 7 true 0x99 with rstDone := false }

/-- The next state, where there is one. -/
def after (o : Host.Outcome State Fault Refusal) : Option State :=
  match o with
  | .next t => some t
  | _ => none

/-- What is looked at after a step: the block but for `lo_byte`, and whether the operation was accepted. -/
structure Seen where
  mem : Memory
  wp : Nat
  rp : Nat
  count : Nat
  pend : Bool
  taken : Taken
deriving DecidableEq, Repr

/-- What is looked at after a step, where there is a next state. -/
def seen (o : Host.Outcome State Fault Refusal) : Option Seen :=
  (after o).map fun t => ⟨t.mem, t.wp, t.rp, t.count, t.pend, t.reply.taken⟩

/-- The samples that a step delivered and how many are queued after it. -/
def served (o : Host.Outcome State Fault Refusal) : Option (List Sample × Nat) :=
  (after o).map fun t => (t.reply.delivered, t.count)

/-- The contents after a schedule. -/
def queued (ops : List Instr) (s : State) : Option (List Int) := (after (runOps ops s)).map State.contents

/-- The operation was refused as one before the first reset. -/
def refusedEarly (o : Host.Outcome State Fault Refusal) : Bool :=
  match o with
  | .refused .beforeFirstReset => true
  | _ => false

/-! ## Terms that the checks refuse -/

theorem test_every_operation_is_wellFormed :
    [Instr.wnop, .putb 0xFF, .endb, .rnop, .pop, .rst].all Instr.wellFormed = true := by decide

theorem test_consumer_may_not_issue_producer_operations :
    Agent.consumer.mayIssue (.putb 0x41) = false ∧ Agent.consumer.mayIssue .endb = false ∧
    Agent.consumer.mayIssue .wnop = false ∧ Agent.consumer.mayIssue .rst = false := by decide

theorem test_producer_may_not_issue_consumer_operations :
    Agent.producer.mayIssue .pop = false ∧ Agent.producer.mayIssue .rnop = false ∧
    Agent.producer.mayIssue .rst = false := by decide

theorem test_host_may_issue_only_rst :
    Agent.host.mayIssue (.putb 0x41) = false ∧ Agent.host.mayIssue .pop = false ∧
    Agent.host.mayIssue .rst = true := by decide

theorem test_agents_do_not_reach_other_ports :
    Agent.producer.mayPresent (.read 1) = false ∧ Agent.consumer.mayPresent (.write 0x241) = false ∧
    Agent.consumer.mayPresent (.reset 1) = false ∧ Agent.host.mayPresent (.write 0x300) = false ∧
    Agent.host.mayPresent (.reset 1) = true := by decide

theorem test_unordered_or_doubled_memory_is_refused :
    Memory.wf [(1, 0x8000), (0, 0x7FF0)] = false ∧ Memory.wf [(0, 0x8000), (0, 0x7FF0)] = false ∧
    Memory.wf [(0, 0x8000), (1, 0x7FF0)] = true := by decide

/-! ## Words written out from 30_encoding.md R37 to R42 -/

/-- `wr_valid = 0`: bit 9 is 0, all else is ignored (95_test_vectors.md section 7). -/
theorem test_decode_wnop :
    decode (.write 0b0000000000) = .ok .wnop ∧ decode (.write 0b0111111111) = .ok .wnop ∧
    decode (.write 0b0100000000) = .ok .wnop := by decide

/-- `wr_valid = 1`, `wr_end = 0`, `wr_data = 0x41`; NUL and 0xFF are legal operands. -/
theorem test_decode_putb :
    decode (.write 0b1001000001) = .ok (.putb 0x41) ∧ decode (.write 0b1000000000) = .ok (.putb 0x00) ∧
    decode (.write 0b1011111111) = .ok (.putb 0xFF) := by decide

/-- `wr_valid = wr_end = 1`, the data ignored. -/
theorem test_decode_endb :
    decode (.write 0b1100000000) = .ok .endb ∧ decode (.write 0b1101000001) = .ok .endb ∧
    decode (.write 0b1111111111) = .ok .endb := by decide

theorem test_decode_rnop : decode (.read 0b0) = .ok .rnop := by decide
theorem test_decode_pop : decode (.read 0b1) = .ok .pop := by decide
theorem test_decode_rst :
    decode (.reset 0b1) = .ok .rst ∧ decode (.reset 0b0) = .error .noHostOperation := by decide

/-- The canonical words of R40. -/
theorem test_encode_words :
    encode .wnop = .write 0x000 ∧ encode (.putb 0x41) = .write 0x241 ∧ encode .endb = .write 0x300 ∧
    encode .rnop = .read 0 ∧ encode .pop = .read 1 ∧ encode .rst = .reset 1 := by decide

/-- Bytes, least significant first; a wrong length is refused by name. -/
theorem test_decode_bytes :
    decodeBytes .write [0x41, 0x02] = .ok (.putb 0x41) ∧ decodeBytes .write [0x00, 0x03] = .ok .endb ∧
    decodeBytes .reset [0x01] = .ok .rst ∧ decodeBytes .write [0x41] = .error .wrongLength ∧
    decodeBytes .read [] = .error .wrongLength := by decide

/-- The host's numbering: bit 0 is the least significant. -/
theorem test_table_words :
    decodeTableWord 16 0x241 = some (.putb 0x41) ∧ decodeTableWord 16 0x000 = some .wnop ∧
    decodeTableWord 16 0x300 = some .endb ∧ decodeTableWord 8 0 = some .rnop ∧
    decodeTableWord 8 1 = some .pop ∧ decodeTableWord 0 0 = none ∧ decodeTableWord 24 0 = none := by decide

/-- The fields of a clock vector: `0xE41` is `rst`, `POP` and `PUTB 'A'` (V-A6). -/
theorem test_clock_fields :
    rstBit (clockReset 0xE41) = true ∧ rdReq (clockRead 0xE41) = true ∧
    decodeWrite (clockWrite 0xE41) = .putb 0x41 ∧ rstBit (clockReset 0x667) = false := by decide

/-! ## The codec (95_test_vectors.md section 2) -/

/-- The neighbours of the runs, and the two ends of each (section 2.1). -/
theorem test_decode_char :
    [0x40, 0x41, 0x5A, 0x5B, 0x60, 0x61, 0x7A, 0x7B, 0x2A, 0x2B, 0x2C, 0x2E, 0x2F, 0x30, 0x39, 0x3A, 0xC1].map decodeChar
      = [0, 0, 25, 0, 0, 26, 51, 0, 0, 62, 0, 0, 63, 52, 61, 0, 0] := by decide

/-- Rows of section 2.2: (`A`,`A`), (`/`,`/`), (`A`,`g`), (`g`,`A`), (`Z`,`z`), (`~`,`g`). -/
theorem test_decode_sample :
    decodeSample 0x41 0x41 = -32768 ∧ decodeSample 0x2F 0x2F = 32752 ∧ decodeSample 0x41 0x67 = 0 ∧
    decodeSample 0x67 0x41 = -32256 ∧ decodeSample 0x5A 0x7A = 19856 ∧ decodeSample 0x7E 0x67 = 0 := by decide

/-- Patterns and bytes of section 2.2: -16 is `0xFFF0`, bytes `F0 FF`. -/
theorem test_sample_bytes :
    bits16 (-16) = 0xFFF0 ∧ int16 0xFFF0 = -16 ∧ int16 0x8000 = -32768 ∧
    sampleBytes (bits16 (-16)) = [0xF0, 0xFF] := by decide

/-- `AA//g` and `BA AB` of section 2.4. -/
theorem test_decode_buffer :
    decodeBuffer [0x41, 0x41, 0x2F, 0x2F, 0x67] = [-32768, 32752] ∧
    decodeBuffer [0x42, 0x41, 0x20, 0x41, 0x42] = [-32752, -32768] := by decide

/-! ## Steps (95_test_vectors.md sections 3 to 6) -/

/-- V-W10. -/
theorem test_wnop_keeps_a_pair : seen (exec .wnop emptyHalf) = some ⟨[], 0, 0, 0, true, .accepted⟩ := by decide

/-- V-W15: the byte `~` is outside the alphabet. -/
theorem test_putb_pushes :
    seen (exec (.putb 0x67) (small 2 [] 0 0 0 true 0x7E)) = some ⟨[(0, 0x0000)], 1, 0, 1, false, .accepted⟩ := by decide

/-- V-W5 and V-W6, after the first byte of V-W4. -/
theorem test_putb_is_held :
    (after (exec (.putb 0x41) fullIdle)).map (fun t => (t.loByte, t.pend, t.wrReady)) = some (0x41, true, false) ∧
    seen (exec (.putb 0x67) fullHalf) = some ⟨fullHalf.mem, 0, 0, 2, true, .held⟩ ∧
    seen (exec (.putb 0x0A) fullHalf) = some ⟨fullHalf.mem, 0, 0, 2, true, .held⟩ := by decide

/-- V-W7: accepted although `wr_ready = 0`. -/
theorem test_endb_forgets : seen (exec .endb fullHalf) = some ⟨fullHalf.mem, 0, 0, 2, false, .accepted⟩ := by decide

/-- V-F6. -/
theorem test_rnop_keeps_the_queue :
    seen (exec .rnop fullIdle) = some ⟨fullIdle.mem, 0, 0, 2, false, .accepted⟩ ∧
    served (exec .rnop fullIdle) = some ([], 2) := by decide

/-- V-F2: the entry is not cleared, the pointer wraps. -/
theorem test_pop_takes_the_oldest :
    seen (exec .pop (small 4 [(0, 0x7FF0), (3, 0x8000)] 1 3 2 false 0)) =
      some ⟨[(0, 0x7FF0), (3, 0x8000)], 1, 0, 1, false, .accepted⟩ ∧
    served (exec .pop (small 4 [(0, 0x7FF0), (3, 0x8000)] 1 3 2 false 0)) = some ([0x8000], 1) := by decide

/-- V-F7: a held first byte is not a sample. -/
theorem test_pop_of_an_empty_fifo :
    served (exec .pop emptyHalf) = some ([], 0) ∧
    (after (exec .pop emptyHalf)).map (fun t => t.reply.read.map ReadReply.rdValid) = some (some false) := by decide

/-- V-X1, from power on, and V-X4. -/
theorem test_rst_empties :
    seen (exec .rst powerOn) = some ⟨[], 0, 0, 0, false, .accepted⟩ ∧
    seen (exec .rst depthOne) = some ⟨[], 0, 0, 0, false, .accepted⟩ := by decide

/-- V-X5. -/
theorem test_operations_before_rst_are_refused :
    [Instr.wnop, .putb 0x41, .endb, .rnop, .pop].all (fun i => refusedEarly (exec i powerOn)) = true := by decide

/-- Producer and `POP` in turn. -/
def alternating (n : Nat) : List Turn := (List.replicate n [Turn.own, Turn.other .pop]).flatten

/-- What a line delivered and what is left of it after its turns. -/
def gone (src : Source) (turns : List Turn) (s : State) : Option (List Sample × List Instr) :=
  match src.run turns s with
  | .next (_, left) => some (along samplesPopped (src.schedule turns s) s, left)
  | _ => none

/-- `LINE` of `AAAA` at `DEPTH = 1` (R44): held once with the FIFO full, then done, both samples delivered. -/
theorem test_line_is_presented_again :
    gone (.line [0x41, 0x41, 0x41, 0x41]) (List.replicate 5 .own) (small 1 [] 0 0 0 false 0) =
      some ([], [.putb 0x41, .endb]) ∧
    gone (.line [0x41, 0x41, 0x41, 0x41]) (List.replicate 5 .own ++ alternating 3) (small 1 [] 0 0 0 false 0) =
      some ([0x8000, 0x8000], []) := by decide

/-- V-F9: `FILL 3` with one sample queued stops at the first failure. -/
theorem test_fill_stops_at_a_failure :
    gone (.fill 3) (List.replicate 3 .own) (small 4 [(0, 0x0210)] 1 0 1 false 0) = some ([0x0210], []) := by decide

/-- V-A2 under both orders. -/
theorem test_clock_at_a_full_fifo :
    (after (Sys2Proof.core.run 3 ({ fullHalf with arb := .readFirst, inputs := [.clock 0x667] }))).map State.contents =
      some [32752, 0] ∧
    (after (Sys2Proof.core.run 3 ({ fullHalf with arb := .writeFirst, inputs := [.clock 0x667] }))).map State.contents =
      some [32752] := by decide

/-- V-A6: the byte is not taken, the `POP` is answered `none`, the next step is `RST`. -/
theorem test_clock_with_rst :
    (after (step { fullHalf with inputs := [.clock 0xE41] })).map
      (fun t => (t.reply.taken, t.reply.delivered, t.inputs)) = some (.held, [], [.command (.reset 1)]) := by decide

/-- A table word placed with `withFetchWord` is the next step. -/
theorem test_fetch_word :
    seen (step (fullHalf.withFetchWord 8 1)) = some ⟨fullHalf.mem, 0, 1, 1, true, .accepted⟩ := by decide

/-- `PUTB 'A'`, and what is refused (R43): a number above 255, a missing operand. -/
theorem test_assembler_operands :
    assembleLine ['P', 'U', 'T', 'B', ' ', '\'', 'A', '\''] = .ok (some (.op (.putb 0x41), none)) ∧
    assembleLine ['P', 'U', 'T', 'B', ' ', '2', '5', '6'] = .error .badOperand ∧
    assembleLine ['P', 'U', 'T', 'B'] = .error .badOperation := by decide

/-- An annotation, an escape, a comment (R43, R44). -/
theorem test_assembler_lines :
    assembleLine ['P', 'O', 'P', ' ', '-', '>', ' ', 'n', 'o', 'n', 'e'] = .ok (some (.op .pop, some .none)) ∧
    assembleLine ['L', 'I', 'N', 'E', ' ', '"', 'A', '\\', 'n', '"'] = .ok (some (.line [0x41, 0x0A], none)) ∧
    assembleLine [' ', ';', 'x'] = .ok none := by decide

/-- The choices of log 18: a semicolon inside quotes is a character, outside it starts a comment. -/
theorem test_assembler_semicolons :
    assembleLine ['P', 'U', 'T', 'B', ' ', '\'', ';', '\''] = .ok (some (.op (.putb 0x3B), none)) ∧
    assembleLine ['P', 'U', 'T', 'S', ' ', '"', ';', '"', ';', 'x'] = .ok (some (.puts [0x3B], none)) ∧
    assembleLine ['P', 'U', 'T', 'B', ' ', '\'', '\'', '\''] = .ok (some (.op (.putb 0x27), none)) := by decide

/-! ## A state that meets the hypotheses of each statement that has some -/

/-- The right bytes, the wrong number of them, and the format X word 0. -/
theorem witness_DecodingInvertsEncoding :
    (Instr.putb 0xFF).wellFormed = true ∧ decodeBytes .write [0xFF, 0x02] = .ok (.putb 0xFF) ∧
    decodeBytes .read [0x01, 0x00] = .error .wrongLength ∧ decodeBytes .reset [0xFE] = .error .noHostOperation := by decide

theorem witness_EveryCommandWordSelectsItsRow :
    Command.write 0x3FF ≠ .reset 0 ∧ (opcodeRows.filter fun r => r.selects (.write 0x3FF)).length = 1 := by decide

/-- Both kinds of don't-care bits, all of them differing. -/
theorem witness_DontCareBitsHaveNoEffect :
    ((0x000 : BitVec 10).getLsbD 9 = false ∧ (0x1FF : BitVec 10).getLsbD 9 = false) ∧
    ((0x300 : BitVec 10).getLsbD 9 = true ∧ (0x300 : BitVec 10).getLsbD 8 = true ∧
      (0x3FF : BitVec 10).getLsbD 9 = true ∧ (0x3FF : BitVec 10).getLsbD 8 = true) := by decide

theorem witness_StepRunsTheDecodedOperation :
    (fresh.withInputs [.command (.write 0x241)]).inputs = [.command (.write 0x241)] ∧
    decode (.write 0x241) = .ok (.putb 0x41) ∧ (Instr.putb 0x41).wellFormed = true ∧
    decodeTableWord 16 0x241 = some (.putb 0x41) := by decide

theorem witness_NothingPresentedChangesNothing :
    fresh.inputs = [] ∧ (fresh.withInputs [.command (.reset 0)]).inputs = [.command (.reset 0)] := by decide

/-- The ends of the three runs, a byte outside, two bytes inside. -/
theorem witness_DecodeCharFollowsTheAlphabet :
    decodeChar (BitVec.ofNat 8 (0x41 + 25)) = 25 ∧ decodeChar (BitVec.ofNat 8 (0x61 + 25)) = 51 ∧
    decodeChar (BitVec.ofNat 8 (0x30 + 9)) = 61 ∧ inAlphabet 0x3D = false ∧
    inAlphabet 0x41 = true ∧ inAlphabet 0x2F = true := by decide

theorem witness_EveryCodeIsSpeltByOneAlphabetPair :
    (pairCode 0x2F 0x66).getLsbD 5 = true ∧ (pairCode 0x2F 0x66).getLsbD 11 = false ∧
    inAlphabet 0x2F = true ∧ inAlphabet 0x66 = true ∧ pairCode 0x2F 0x66 = 0x7FF := by decide

theorem witness_DecodeSampleScalesTheCode : inAlphabet 0x7E = false ∧ inAlphabet 0x0A = false := by decide

theorem witness_SamplePatternIsTheShiftedCode :
    [3, 4, 9, 10, 14, 15].map (fun i => (bits16 (decodeSample 0x2F 0x66)).getLsbD i) =
      [false, true, true, true, true, true] := by decide

theorem witness_DecodedSamplesFitSixteenBits :
    (0x7FF : Code).toNat < (0x800 : Code).toNat ∧ (-2048 : Int) ≤ -2048 ∧ (2047 : Int) ≤ 2047 ∧
    decodeSample 0x41 0x41 = 16 * -2048 ∧ decodeSample 0x2F 0x2F = 16 * 2047 := by decide

/-- The last pair of an odd buffer. -/
theorem witness_DecodeBufferPairsBytesInOrder :
    ([0x41, 0x41, 0x2F, 0x2F, 0x67] : List Byte)[2 * 1]? = some 0x2F ∧
    ([0x41, 0x41, 0x2F, 0x2F, 0x67] : List Byte)[2 * 1 + 1]? = some 0x2F := by decide

theorem witness_ByteFormIsLowByteFirst : sampleBytes (bits16 (decodeSample 0x2F 0x66)) = [0xF0, 0xFF] := by decide

theorem witness_TerminatorsLeftOnALine :
    ([0x41, 0x41] : List Byte).length % 2 = 0 ∧ inAlphabet 0x0A = false ∧ inAlphabet 0x0D = false := by decide

theorem witness_PutbKeepsAFirstByte : fullIdle.rstDone = true ∧ fullIdle.pend = false := by decide

theorem witness_PutbPushesADecodedPair :
    oneHalf.rstDone = true ∧ oneHalf.pend = true ∧ oneHalf.count ≠ oneHalf.depth := by decide

theorem witness_PutbIsHeldAtAFullFifo :
    depthOne.rstDone = true ∧ depthOne.pend = true ∧ depthOne.count = depthOne.depth := by decide

/-- Ready at an empty FIFO with half a pair, not ready at a full one. -/
theorem witness_PutbIsAcceptedExactlyWhenReady :
    emptyHalf.rstDone = true ∧ emptyHalf.wrReady = true ∧ fullHalf.rstDone = true ∧ fullHalf.wrReady = false := by decide

theorem witness_HoldIgnoresTheByte : fullHalf.pend = true ∧ fullHalf.count = fullHalf.depth := by decide

theorem witness_EveryByteIsDecodedLeniently :
    emptyHalf.rstDone = true ∧ (after (exec (.putb 0x7E) emptyHalf)).isSome = true ∧
    (after (exec (.putb 0x67) emptyHalf)).isSome = true := by decide

theorem witness_EndbForgetsAHeldByte :
    (0x3FF : BitVec 10).getLsbD 9 = true ∧ (0x3FF : BitVec 10).getLsbD 8 = true ∧ fullHalf.rstDone = true := by decide

theorem witness_WnopChangesNothing : (0x1FF : BitVec 10).getLsbD 9 = false ∧ emptyHalf.rstDone = true := by decide

/-- At the first entry and at the last one, where `wp` wraps. -/
theorem witness_PushAppendsToTheContents :
    (Consistent emptyHalf ∧ emptyHalf.rstDone = true ∧ emptyHalf.pend = true ∧ emptyHalf.count < emptyHalf.depth) ∧
    (Consistent lastEntry ∧ lastEntry.rstDone = true ∧ lastEntry.pend = true ∧ lastEntry.count < lastEntry.depth) := by
  decide

theorem witness_PopAnswersByTheCount :
    emptyHalf.rstDone = true ∧ emptyHalf.count = 0 ∧ depthOne.rstDone = true ∧ depthOne.count ≠ 0 := by decide

theorem witness_RnopChangesNothing : fullIdle.rstDone = true := by decide

theorem witness_PopRemovesTheOldestSample :
    Consistent fullHalf ∧ fullHalf.rstDone = true ∧ 0 < fullHalf.count := by decide

theorem witness_UnderrunLeavesNoTrace : emptyHalf.rstDone = true ∧ emptyHalf.count = 0 := by decide

theorem witness_RstEmptiesTheBlock : 1 ≤ powerOn.depth := by decide

theorem witness_OperationsBeforeTheFirstResetAreRefused :
    powerOn.rstDone = false ∧ Instr.pop ≠ .rst ∧ exec .pop powerOn = .refused .beforeFirstReset :=
  ⟨rfl, by decide, rfl⟩

theorem witness_EveryOperationRunsAfterReset : fullHalf.rstDone = true := by decide

theorem witness_StatusOutputsFollowTheState : 1 ≤ depthOne.depth ∧ depthOne.full = true := by decide

/-- V-W14: the first byte at a full FIFO. -/
theorem witness_ReadyFallsOnlyAcrossAFirstByte :
    ∃ t, Consistent fullIdle ∧ exec (.putb 0x42) fullIdle = .next t ∧ fullIdle.wrReady = true ∧ t.wrReady = false :=
  ⟨_, by decide, rfl, by decide, by decide⟩

/-- A push, a kept byte and a hold. -/
theorem witness_WritePortFrame :
    (Instr.putb 0x67).agent = .producer ∧ Consistent oneHalf ∧ (∃ t, exec (.putb 0x67) oneHalf = .next t) ∧
    Consistent fullIdle ∧ (∃ t, exec (.putb 0x67) fullIdle = .next t) ∧
    Consistent fullHalf ∧ (∃ t, exec (.putb 0x67) fullHalf = .next t) :=
  ⟨rfl, by decide, ⟨_, rfl⟩, by decide, ⟨_, rfl⟩, by decide, ⟨_, rfl⟩⟩

theorem witness_ReadPortFrame :
    Instr.pop.agent = .consumer ∧ (∃ t, exec .pop fullHalf = .next t) ∧ (∃ t, exec .pop emptyHalf = .next t) :=
  ⟨rfl, ⟨_, rfl⟩, ⟨_, rfl⟩⟩

theorem witness_QueuedSamplesAreNotOverwritten :
    (Instr.putb 0x67).agent = .producer ∧ Consistent oneHalf ∧ (∃ t, exec (.putb 0x67) oneHalf = .next t) ∧
    0 < oneHalf.count :=
  ⟨rfl, by decide, ⟨_, rfl⟩, by decide⟩

theorem witness_AgentsMoveTheCountTheirOwnWay :
    (∃ t, exec (.putb 0x67) oneHalf = .next t) ∧ (∃ t, exec .pop oneHalf = .next t) ∧ (∃ t, exec .rst oneHalf = .next t) :=
  ⟨⟨_, rfl⟩, ⟨_, rfl⟩, ⟨_, rfl⟩⟩

theorem witness_NonemptyFifoServesTheNextPop :
    Consistent oneHalf ∧ oneHalf.rstDone = true ∧ oneHalf.empty = false ∧
    ∀ i ∈ [Instr.putb 0x67, .wnop, .endb], i.agent = .producer := by decide

theorem witness_IdempotentOperations : Instr.endb = .endb ∧ fullHalf.rstDone = true := by decide

theorem witness_StepKeepsTheInvariant :
    ∃ t, Consistent (oneHalf.withInputs [.command (.write 0x267)]) ∧
      step (oneHalf.withInputs [.command (.write 0x267)]) = .next t :=
  ⟨_, by decide, rfl⟩

theorem witness_ResetSatisfiesTheInvariant : ∃ t, 1 ≤ powerOn.depth ∧ exec .rst powerOn = .next t :=
  ⟨_, by decide, rfl⟩

theorem witness_StepsKeepTheConfiguration : ∃ t, step (fullHalf.withFetchWord 8 1) = .next t := ⟨_, rfl⟩

theorem witness_PresentedScheduleRunsItsOperations :
    (emptyHalf.withInputs (presented [.putb 0x67, .pop] ++ [.clock 0x800])).inputs =
      presented [.putb 0x67, .pop] ++ [.clock 0x800] := rfl

theorem witness_PopsReturnThePushedSamplesInOrder :
    ∃ t, Consistent oneHalf ∧ oneHalf.rstDone = true ∧ Instr.rst ∉ [Instr.putb 0x67, .pop, .pop] ∧
      runOps [.putb 0x67, .pop, .pop] oneHalf = .next t :=
  ⟨_, by decide, rfl, by decide, rfl⟩

/-- A buffer with a hold and a `POP` on the way. -/
theorem witness_StreamDecodesAsOneBuffer :
    Consistent fullIdle ∧ fullIdle.rstDone = true ∧ fullIdle.pend = false ∧
    ∀ i ∈ [Instr.putb 0x41, .putb 0x67, .pop, .putb 0x67], i ≠ .endb ∧ i ≠ .rst := by decide

theorem witness_LineAppendsItsDecodedBuffer :
    Consistent fresh ∧ fresh.rstDone = true ∧ fresh.pend = false ∧
    fresh.count + ([0x41, 0x41, 0x2F, 0x2F, 0x67] : List Byte).length / 2 ≤ fresh.depth := by decide

theorem witness_FillDeliversTheOldestSamples : Consistent fullHalf ∧ fullHalf.rstDone = true := by decide

/-- A schedule with a hold. -/
theorem witness_BlockRunsAreUnboundedRuns :
    ∃ t, Consistent fullHalf ∧ runOps [.putb 0x67, .pop, .putb 0x67] fullHalf = .next t :=
  ⟨_, by decide, rfl⟩

theorem witness_FittingUnboundedStepsAreBlockSteps :
    ∃ u, Consistent oneHalf ∧ uexec (.putb 0x67) oneHalf.unbounded = .next u ∧
      ¬ ((∃ d, Instr.putb 0x67 = .putb d) ∧ oneHalf.pend = true ∧ oneHalf.contents.length = oneHalf.depth) :=
  ⟨_, by decide, rfl, fun h => absurd h.2.2 (by decide)⟩

/-- Two states that differ in `lo_byte` and in an entry outside the window. -/
theorem witness_UnspecifiedValuesNeverShow :
    Consistent (small 2 [(0, 0x8000)] 1 0 1 false 0x11) ∧ Consistent (small 2 [(0, 0x8000), (1, 0x7FF0)] 1 0 1 false 0x22) ∧
    SameButUnspecified (small 2 [(0, 0x8000)] 1 0 1 false 0x11) (small 2 [(0, 0x8000), (1, 0x7FF0)] 1 0 1 false 0x22) := by
  decide

theorem witness_HeldPutbIsLifted : Consistent fullHalf ∧ fullHalf.rstDone = true ∧ fullHalf.wrReady = false := by decide

theorem witness_ResetWinsTheClock :
    (fullHalf.withInputs [.clock 0xE41]).inputs = [.clock 0xE41] ∧ (0xE41 : BitVec 12).getLsbD 11 = true ∧
    (0xE41 : BitVec 12).getLsbD 10 = true := by decide

/-- A clock under each value of `ARB`. -/
theorem witness_ClockCommandsFollowArb :
    (0x667 : BitVec 12).getLsbD 11 = false ∧ (fullHalf.withInputs [.clock 0x667]).inputs = [.clock 0x667] ∧
    fullHalf.arb = .either ∧ { fullHalf with arb := .readFirst }.arb = .readFirst ∧
    { fullHalf with arb := .writeFirst }.arb = .writeFirst := by decide

/-- V-A3 and V-A4. -/
theorem witness_WriteAndPopCommuteElsewhere :
    ((Instr.putb 0x67).agent = .producer ∧ Consistent oneHalf ∧ oneHalf.rstDone = true ∧
      ¬ ((∃ d, Instr.putb 0x67 = .putb d) ∧ oneHalf.pend = true ∧ (oneHalf.count = 0 ∨ oneHalf.count = oneHalf.depth))) ∧
    (Consistent fresh ∧ fresh.rstDone = true ∧
      ¬ ((∃ d, Instr.putb 0x41 = .putb d) ∧ fresh.pend = true ∧ (fresh.count = 0 ∨ fresh.count = fresh.depth))) :=
  ⟨⟨rfl, by decide, rfl, fun h => absurd h.2.2 (by decide)⟩, by decide, rfl, fun h => absurd h.2.1 (by decide)⟩

theorem witness_OrderMattersAtAnEmptyFifo :
    Consistent emptyHalf ∧ emptyHalf.rstDone = true ∧ emptyHalf.pend = true ∧ emptyHalf.count = 0 := by decide

theorem witness_OrderMattersAtAFullFifo :
    Consistent fullHalf ∧ fullHalf.rstDone = true ∧ fullHalf.pend = true ∧ fullHalf.count = fullHalf.depth := by decide

/-- A `LINE` that is held, with a `POP` and a `WNOP` between its turns. -/
theorem witness_LineIsPresentedUntilAccepted :
    Consistent fullIdle ∧ fullIdle.rstDone = true ∧ fullIdle.pend = false ∧
    (∀ i, Turn.other i ∈ [Turn.own, .own, .other .wnop, .other .pop, .own, .own] → i.agent = .consumer ∨ i = .wnop) ∧
    (gone (.line [0x41, 0x67]) [Turn.own, .own, .other .wnop, .other .pop, .own, .own] fullIdle).map Prod.snd = some [] := by
  refine ⟨by decide, rfl, rfl, ?_, by decide⟩
  intro i hi
  simp only [List.mem_cons, List.not_mem_nil, Turn.other.injEq, reduceCtorEq, false_or, or_false] at hi
  rcases hi with rfl | rfl
  · exact .inr rfl
  · exact .inl rfl

/-- The least number of turns, held in the first of them; and no `POP` at all. -/
theorem witness_HeldLineWaitsForThePop :
    Consistent depthOne ∧ depthOne.rstDone = true ∧ ([0x41, 0x41] : List Byte).length + 2 ≤ 4 ∧
    fullHalf.rstDone = true ∧ fullHalf.wrReady = false := by decide

end Sys2Proof.Machine.Tests
end

section
/-! Proofs about the state: the status outputs (10_state.md R16), the state `RST` leaves (R20) and the refusal before
the first `RST` (R21). -/

namespace Sys2Proof.Machine

/-! ## The status outputs in the terms of R16

`wr_ready = 0` is `State.wrReady_eq_false`. -/

theorem State.empty_eq_true (s : State) : s.empty = true ↔ s.count = 0 := by
  simp [State.empty]

theorem State.full_eq_true (s : State) : s.full = true ↔ s.count = s.depth := by
  simp [State.full]

theorem State.full_eq_false (s : State) : s.full = false ↔ s.count ≠ s.depth := by
  simp [State.full]

@[simp] theorem State.level_eq_count (s : State) : s.level = s.count := rfl

@[simp] theorem State.pendO_eq_pend (s : State) : s.pendO = s.pend := rfl

/-- With no first byte held the next `PUTB` needs no room, so `wr_ready` is 1 even at a full FIFO. -/
theorem State.wrReady_of_not_pend (s : State) (h : s.pend = false) : s.wrReady = true := by
  simp [State.wrReady, h]

/-- The place where R16 needs `DEPTH >= 1`: at `DEPTH = 0` both conditions would be `count = 0`. -/
theorem State.not_empty_and_full (s : State) (hd : 1 ≤ s.depth) : ¬ (s.empty = true ∧ s.full = true) := by
  rw [State.empty_eq_true, State.full_eq_true]
  omega

/-- Settles O33, each output by its lemma. -/
theorem statusOutputsFollowTheState : Obligations.StatusOutputsFollowTheState := fun s =>
  ⟨s.empty_eq_true, s.full_eq_true, s.level_eq_count, s.pendO_eq_pend, s.wrReady_eq_false, s.not_empty_and_full⟩

/-! ## Which operations the first reset guards -/

/-- `RST` is accepted in every state (42_control.md R63): its arm has no guard. -/
@[simp] theorem exec_rst (s : State) : exec .rst s = .next (s.cleared.answer Reply.accepted) := rfl

/-- Every other operation has the guard of R21 in front of the state it leaves. -/
theorem exec_eq_afterFirstReset (i : Instr) (s : State) (hi : i ≠ .rst) : ∃ t, exec i s = afterFirstReset s t := by
  cases i with
  | wnop => exact ⟨s.answer Reply.accepted, rfl⟩
  | putb d => exact ⟨s.takeByte (byteOperand d), rfl⟩
  | endb => exact ⟨s.clearPend.answer Reply.accepted, rfl⟩
  | rnop => exact ⟨s.answerNoSample, rfl⟩
  | pop => exact ⟨s.takeSample, rfl⟩
  | rst => exact absurd rfl hi

/-- The guard refuses for one reason only, and only while no reset has happened. -/
theorem afterFirstReset_eq_refused (s t : State) (r : Refusal) :
    afterFirstReset s t = .refused r ↔ s.rstDone = false ∧ r = .beforeFirstReset := by
  cases hr : s.rstDone with
  | false => simp [hr, eq_comm]
  | true => simp [hr]

/-- R21 in both directions: what is refused, and why. -/
theorem exec_eq_refused (i : Instr) (s : State) (r : Refusal) :
    exec i s = .refused r ↔ i ≠ .rst ∧ s.rstDone = false ∧ r = .beforeFirstReset := by
  by_cases hi : i = .rst
  · subst hi
    simp
  · obtain ⟨t, ht⟩ := exec_eq_afterFirstReset i s hi
    simp [ht, hi, afterFirstReset_eq_refused]

/-- Settles O31, by the two directions of `exec_eq_refused`. -/
theorem operationsBeforeTheFirstResetAreRefused : Obligations.OperationsBeforeTheFirstResetAreRefused := by
  constructor
  · intro i s hs hi
    exact (exec_eq_refused i s _).mpr ⟨hi, hs, rfl⟩
  · intro i s r h
    obtain ⟨hi, hs, hr⟩ := (exec_eq_refused i s r).mp h
    exact ⟨hr, hs, hi⟩

/-! ## The state after `RST` -/

/-- The status outputs that R20 lists hold of every state with nothing queued and no byte held, whatever its pointers,
`lo_byte` and `mem`. -/
theorem State.status_of_empty (s : State) (hd : 1 ≤ s.depth) (hc : s.count = 0) (hp : s.pend = false) :
    s.empty = true ∧ s.full = false ∧ s.level = 0 ∧ s.pendO = false ∧ s.wrReady = true := by
  have hfull : s.count ≠ s.depth := by omega
  exact ⟨s.empty_eq_true.mpr hc, s.full_eq_false.mpr hfull, hc, hp, s.wrReady_of_not_pend hp⟩

/-- Settles O29: the state `RST` leaves is the cleared one with its answer, so each field is by definition the table's;
the status outputs follow from `count` and `pend`. -/
theorem rstEmptiesTheBlock : Obligations.RstEmptiesTheBlock := by
  have hdecode : decode (.reset 1) = .ok .rst := by decide
  refine ⟨hdecode, fun s => ⟨s.cleared.answer Reply.accepted, exec_rst s, ?_⟩⟩
  have hcontents : (s.cleared.answer Reply.accepted).contents = [] := by simp
  have hstatus := fun hd : 1 ≤ s.depth => (s.cleared.answer Reply.accepted).status_of_empty hd rfl rfl
  exact ⟨rfl, rfl, rfl, rfl, rfl, hcontents, hstatus, rfl, rfl, rfl, rfl⟩

end Sys2Proof.Machine
end

section
/-! Proofs about the encoding: which row of the opcode map a command word selects and what it decodes to
(30_encoding.md R40), and which of its bits have no effect (R41). -/

namespace Sys2Proof

/-! ## Decoding by the control bits -/

/-- With `wr_valid = 0` the other nine bits are don't-care (R41). -/
theorem decodeWrite_of_not_valid (w : BitVec 10) (hv : wrValid w = false) : decodeWrite w = .wnop := by
  simp [decodeWrite, hv]

theorem decodeWrite_of_byte (w : BitVec 10) (hv : wrValid w = true) (he : wrEnd w = false) :
    decodeWrite w = .putb (wrData w) := by
  simp [decodeWrite, hv, he]

/-- With `wr_valid = wr_end = 1` the eight data bits are don't-care (R41). -/
theorem decodeWrite_of_end (w : BitVec 10) (hv : wrValid w = true) (he : wrEnd w = true) : decodeWrite w = .endb := by
  simp [decodeWrite, hv, he]

/-- The three kinds of format W words. -/
theorem decodeWrite_cases (w : BitVec 10) :
    (wrValid w = false ∧ decodeWrite w = .wnop) ∨
    (wrValid w = true ∧ wrEnd w = false ∧ decodeWrite w = .putb (wrData w)) ∨
    (wrValid w = true ∧ wrEnd w = true ∧ decodeWrite w = .endb) := by
  cases hv : wrValid w with
  | false => exact .inl ⟨rfl, decodeWrite_of_not_valid w hv⟩
  | true =>
    cases he : wrEnd w with
    | false => exact .inr (.inl ⟨rfl, rfl, decodeWrite_of_byte w hv he⟩)
    | true => exact .inr (.inr ⟨rfl, rfl, decodeWrite_of_end w hv he⟩)

theorem decode_write (w : BitVec 10) : decode (.write w) = .ok (decodeWrite w) := rfl

theorem decode_read_zero : decode (.read 0#1) = .ok .rnop := rfl

theorem decode_read_one : decode (.read 1#1) = .ok .pop := rfl

theorem decode_reset_zero : decode (.reset 0#1) = .error .noHostOperation := rfl

theorem decode_reset_one : decode (.reset 1#1) = .ok .rst := rfl

theorem exists_decode_read (w : BitVec 1) : ∃ i, decode (.read w) = .ok i := ⟨decodeRead w, rfl⟩

/-- The only word that is no operation is the format X word 0. -/
theorem exists_decode_eq_ok (c : Command) (hc : c ≠ .reset 0#1) : ∃ i, decode c = .ok i := by
  cases c with
  | write w => exact ⟨decodeWrite w, rfl⟩
  | read w => exact exists_decode_read w
  | reset w =>
    obtain rfl | rfl := w.eq_zero_or_eq_one
    · exact absurd rfl hc
    · exact ⟨.rst, decode_reset_one⟩

/-- `wr_data` as a number is the word modulo 256. -/
theorem wrData_eq_ofNat (w : BitVec 10) : wrData w = BitVec.ofNat 8 w.toNat := rfl

/-- A `PUTB` is a format W word, and its operand is that word's `wr_data`. -/
theorem operand_of_decode_eq_putb (c : Command) (d : Byte) (h : decode c = .ok (.putb d)) :
    ∃ w, c = .write w ∧ d = BitVec.ofNat 8 w.toNat := by
  cases c with
  | write w =>
    rw [decode_write] at h
    obtain ⟨-, hd⟩ | ⟨-, -, hd⟩ | ⟨-, -, hd⟩ := decodeWrite_cases w <;> simp [hd] at h
    exact ⟨w, rfl, h.symm.trans (wrData_eq_ofNat w)⟩
  | read w => obtain rfl | rfl := w.eq_zero_or_eq_one <;> simp [decode_read_zero, decode_read_one] at h
  | reset w => obtain rfl | rfl := w.eq_zero_or_eq_one <;> simp [decode_reset_zero, decode_reset_one] at h

/-! ## The masked bits of a word

Each mask of R40 keeps the control bits of its format and no others. -/

@[simp] theorem and_validMask (w : BitVec 10) : w &&& 0x200#10 = if wrValid w then 0x200#10 else 0#10 :=
  BitVec.and_twoPow w 9

@[simp] theorem and_endMask (w : BitVec 10) : w &&& 0x100#10 = if wrEnd w then 0x100#10 else 0#10 :=
  BitVec.and_twoPow w 8

@[simp] theorem and_validEndMask (w : BitVec 10) :
    w &&& 0x300#10 = (if wrValid w then 0x200#10 else 0#10) ||| (if wrEnd w then 0x100#10 else 0#10) := by
  have hmask : 0x300#10 = 0x200#10 ||| 0x100#10 := rfl
  rw [hmask, BitVec.and_or_distrib_left, and_validMask, and_endMask]

/-! ## The opcode map against the decoder -/

@[simp] theorem OpcodeRow.selects_iff (r : OpcodeRow) (c : Command) :
    r.selects c = true ↔ r.port = c.port ∧ c.bits &&& r.mask = r.value := by
  simp [OpcodeRow.selects]

theorem mem_opcodeRows (r : OpcodeRow) : r ∈ opcodeRows ↔ ∃ i : Instr, i.opcodeRow = r := by
  constructor
  · intro h
    simp only [opcodeRows, List.mem_cons, List.not_mem_nil, or_false] at h
    obtain rfl | rfl | rfl | rfl | rfl | rfl := h
    exacts [⟨.wnop, rfl⟩, ⟨.putb 0, rfl⟩, ⟨.endb, rfl⟩, ⟨.rnop, rfl⟩, ⟨.pop, rfl⟩, ⟨.rst, rfl⟩]
  · rintro ⟨i, rfl⟩
    cases i <;> simp [Instr.opcodeRow, opcodeRows]

/-- Two operations share a row only if they are the same operation or two `PUTB`s. -/
theorem Instr.opcodeRow_eq_iff (i j : Instr) :
    i.opcodeRow = j.opcodeRow ↔ i = j ∨ ∃ d e, i = .putb d ∧ j = .putb e := by
  cases i <;> cases j <;> simp [Instr.opcodeRow]

/-- A format W word selects the row of the operation it decodes to and no other. -/
theorem selects_write_iff (i : Instr) (w : BitVec 10) :
    i.opcodeRow.selects (.write w) = true ↔ i.opcodeRow = (decodeWrite w).opcodeRow := by
  obtain ⟨hv, hd⟩ | ⟨hv, he, hd⟩ | ⟨hv, he, hd⟩ := decodeWrite_cases w
  · cases he : wrEnd w <;> cases i <;> simp [Instr.opcodeRow, Command.port, Command.bits, hd, hv, he]
  · cases i <;> simp [Instr.opcodeRow, Command.port, Command.bits, hd, hv, he]
  · cases i <;> simp [Instr.opcodeRow, Command.port, Command.bits, hd, hv, he]

/-- A word of any format selects the row of the operation it decodes to and no other. -/
theorem selects_iff_of_decode (c : Command) (i j : Instr) (h : decode c = .ok i) :
    j.opcodeRow.selects c = true ↔ j.opcodeRow = i.opcodeRow := by
  cases c with
  | write w =>
    obtain rfl : decodeWrite w = i := by simpa [decode_write] using h
    exact selects_write_iff j w
  | read w =>
    obtain rfl | rfl := w.eq_zero_or_eq_one
    · obtain rfl : Instr.rnop = i := by simpa [decode_read_zero] using h
      cases j <;> simp [Instr.opcodeRow, Command.port, Command.bits]
    · obtain rfl : Instr.pop = i := by simpa [decode_read_one] using h
      cases j <;> simp [Instr.opcodeRow, Command.port, Command.bits]
  | reset w =>
    obtain rfl | rfl := w.eq_zero_or_eq_one
    · simp [decode_reset_zero] at h
    · obtain rfl : Instr.rst = i := by simpa [decode_reset_one] using h
      cases j <;> simp [Instr.opcodeRow, Command.port, Command.bits]

/-- The format X word 0 selects no row, as "the absence of a host operation" (R40). -/
theorem not_selects_reset_zero (i : Instr) : ¬ i.opcodeRow.selects (.reset 0#1) = true := by
  cases i <;> exact Bool.false_ne_true

/-- R40 as a rule for decoding: the row says the operation, and for `PUTB` bits 7 to 0 say the operand. -/
theorem decode_eq_ok_iff (c : Command) (i : Instr) :
    decode c = .ok i ↔
      i.opcodeRow.selects c = true ∧ ∀ d, i = .putb d → ∃ w, c = .write w ∧ d = BitVec.ofNat 8 w.toNat := by
  constructor
  · intro h
    refine ⟨(selects_iff_of_decode c i i h).mpr rfl, ?_⟩
    rintro d rfl
    exact operand_of_decode_eq_putb c d h
  · rintro ⟨hsel, hop⟩
    have hc : c ≠ .reset 0#1 := by
      rintro rfl
      exact not_selects_reset_zero i hsel
    obtain ⟨j, hj⟩ := exists_decode_eq_ok c hc
    have hrow := (selects_iff_of_decode c j i hj).mp hsel
    obtain rfl | ⟨d, e, rfl, rfl⟩ := (Instr.opcodeRow_eq_iff i j).mp hrow
    · exact hj
    · obtain ⟨w, rfl, rfl⟩ := hop d rfl
      obtain ⟨w', hw, rfl⟩ := operand_of_decode_eq_putb _ e hj
      cases hw
      exact hj

/-- The rows are distinct and a word decodes to one operation at most, so the rows it selects are one row. -/
theorem length_selected_eq_one (c : Command) (hc : c ≠ .reset 0#1) :
    (opcodeRows.filter fun r => r.selects c).length = 1 := by
  obtain ⟨i, hi⟩ := exists_decode_eq_ok c hc
  have hmem : i.opcodeRow ∈ opcodeRows := (mem_opcodeRows _).mpr ⟨i, rfl⟩
  have hnodup : opcodeRows.Nodup := by decide
  have hselects : ∀ r ∈ opcodeRows, r.selects c = (r == i.opcodeRow) := by
    intro r hr
    obtain ⟨j, rfl⟩ := (mem_opcodeRows r).mp hr
    rw [Bool.eq_iff_iff, selects_iff_of_decode c i j hi, beq_iff_eq]
  calc (opcodeRows.filter fun r => r.selects c).length
      = (opcodeRows.filter fun r => r == i.opcodeRow).length := by rw [List.filter_congr hselects]
    _ = opcodeRows.count i.opcodeRow := List.countP_eq_length_filter.symm
    _ = 1 := List.count_eq_one_of_mem hnodup hmem

theorem length_selected_reset_zero : (opcodeRows.filter fun r => r.selects (.reset 0#1)).length = 0 := by
  rw [List.length_eq_zero_iff, List.filter_eq_nil_iff]
  intro r hr
  obtain ⟨i, rfl⟩ := (mem_opcodeRows r).mp hr
  exact not_selects_reset_zero i

/-! ## The canonical words -/

/-- The canonical word of `PUTB d` as a number: `d` fits below bit 9, so "or" is a sum. -/
theorem encode_putb (d : Byte) : encode (.putb d) = .write (BitVec.ofNat 10 (0x200 + d.toNat)) := by
  have hd : d.toNat < 2 ^ 9 := by omega
  have hor : 0x200 + d.toNat = 0x200 ||| d.toNat := Nat.two_pow_add_eq_or_of_lt hd 1
  have hword : 0x200#10 ||| d.setWidth 10 = BitVec.ofNat 10 (0x200 + d.toNat) := by
    rw [hor, BitVec.ofNat_or, BitVec.ofNat_toNat]
  exact congrArg Command.write hword

/-- The canonical word of an operation decodes to it: it selects its row, and for `PUTB` it carries the operand. -/
theorem decode_encode (i : Instr) : decode (encode i) = .ok i := by
  cases i with
  | putb d =>
    obtain ⟨-, hsel, -⟩ := Laws.CanonicalWord.putb d
    refine (decode_eq_ok_iff _ _).mpr ⟨hsel, ?_⟩
    rintro _ ⟨rfl⟩
    exact ⟨_, encode_putb d, by bv_omega⟩
  | wnop => rfl
  | endb => rfl
  | rnop => rfl
  | pop => rfl
  | rst => rfl

end Sys2Proof

namespace Sys2Proof.Machine

/-- Settles O2: `decode_eq_ok_iff` is the rule of R40, and the rest counts its rows and lists its canonical words. -/
theorem everyCommandWordSelectsItsRow : Obligations.EveryCommandWordSelectsItsRow :=
  ⟨decode_eq_ok_iff, length_selected_eq_one, length_selected_reset_zero, rfl, encode_putb, rfl, rfl, rfl, rfl⟩

/-! ## Don't-care bits -/

@[simp] theorem State.withInputs_withInputs (s : State) (l l' : List Input) :
    (s.withInputs l).withInputs l' = s.withInputs l' := rfl

/-- A step sees of a command word what it decodes to and nothing else. -/
theorem step_congr_decode (s : State) (c c' : Command) (rest : List Input) (h : decode c = decode c') :
    step (s.withInputs (.command c :: rest)) = step (s.withInputs (.command c' :: rest)) := by
  simp only [step, State.withInputs_inputs, State.withInputs_withInputs, h]

/-- Settles O3: words that differ in don't-care bits decode alike, and a step sees only that. -/
theorem dontCareBitsHaveNoEffect : Obligations.DontCareBitsHaveNoEffect := by
  refine ⟨fun w => ⟨_, decode_write w⟩, exists_decode_read, fun d => ⟨_, decode_encode (.putb d)⟩, ?_⟩
  intro w w' rest s h
  have hdecode : decodeWrite w = decodeWrite w' := by
    obtain ⟨hv, hv'⟩ | ⟨hv, he, hv', he'⟩ := h
    · rw [decodeWrite_of_not_valid w hv, decodeWrite_of_not_valid w' hv']
    · rw [decodeWrite_of_end w hv he, decodeWrite_of_end w' hv' he']
  exact step_congr_decode s _ _ rest (by rw [decode_write, decode_write, hdecode])

end Sys2Proof.Machine
end

section
/-! Proofs about the codec (40_codec.md): pairs of bytes to samples (R48), the alphabet (R45), and the write-port
operations without an operand (R50, R51). -/

namespace Sys2Proof.Machine

/-! ## `decode_buffer`

The recursion is `decodeBuffer`'s own: a pair comes off the front until at most one byte is left. -/

@[simp] theorem length_decodeBuffer : ∀ bytes : List Byte, (decodeBuffer bytes).length = bytes.length / 2
  | [] => rfl
  | [b] => by rw [decodeBuffer_one, List.length_nil, List.length_singleton]
  | low :: high :: rest => by
    rw [decodeBuffer_pair, List.length_cons, length_decodeBuffer rest, List.length_cons, List.length_cons]
    omega

/-- A pair taken off the front moves the index of a sample by one and those of its two bytes by two. -/
theorem getElem?_decodeBuffer : ∀ (bytes : List Byte) (k : Nat) (low high : Byte),
    bytes[2 * k]? = some low → bytes[2 * k + 1]? = some high →
      (decodeBuffer bytes)[k]? = some (decodeSample low high)
  | [], _, _, _, hlow, _ => by simp at hlow
  | [_], _, _, _, _, hhigh => by simp at hhigh
  | b0 :: b1 :: _, 0, low, high, hlow, hhigh => by
    obtain rfl : b0 = low := by simpa using hlow
    obtain rfl : b1 = high := by simpa using hhigh
    rfl
  | _ :: _ :: rest, k + 1, low, high, hlow, hhigh => getElem?_decodeBuffer rest k low high hlow hhigh

/-- Two bytes for each sample (30_encoding.md R36). -/
@[simp] theorem length_streamBytes (xs : List Int) : (streamBytes xs).length = 2 * xs.length := by
  simp [streamBytes, sampleBytes, Nat.mul_comm]

/-- Settles O13: the two lengths, and the `k`-th sample by `getElem?_decodeBuffer`. -/
theorem decodeBufferPairsBytesInOrder : Obligations.DecodeBufferPairsBytesInOrder := fun bytes =>
  ⟨length_decodeBuffer bytes, by rw [length_streamBytes, length_decodeBuffer], getElem?_decodeBuffer bytes⟩

/-! ## The alphabet -/

/-- A run of bytes, by its first byte and its size, as a range of values. -/
theorem exists_eq_ofNat_run_iff (b : Byte) (first size : Nat) (hfit : first + size ≤ 256) :
    (∃ n, n < size ∧ b = BitVec.ofNat 8 (first + n)) ↔ first ≤ b.toNat ∧ b.toNat < first + size := by
  constructor
  · rintro ⟨n, hn, rfl⟩
    rw [BitVec.toNat_ofNat]
    omega
  · rintro ⟨hge, hlt⟩
    refine ⟨b.toNat - first, by omega, ?_⟩
    rw [Nat.add_sub_cancel' hge, BitVec.ofNat_toNat, BitVec.setWidth_eq]

/-- The alphabet of R45: three runs and two single bytes. -/
theorem inAlphabet_iff (b : Byte) :
    inAlphabet b = true ↔
      (∃ n, n < 26 ∧ b = BitVec.ofNat 8 (0x41 + n)) ∨ (∃ n, n < 26 ∧ b = BitVec.ofNat 8 (0x61 + n)) ∨
      (∃ n, n < 10 ∧ b = BitVec.ofNat 8 (0x30 + n)) ∨ b = 0x2B ∨ b = 0x2F := by
  rw [exists_eq_ofNat_run_iff b 0x41 26 (by omega), exists_eq_ofNat_run_iff b 0x61 26 (by omega),
    exists_eq_ofNat_run_iff b 0x30 10 (by omega)]
  simp [inAlphabet, Nat.lt_succ_iff, or_assoc]

/-- The value of a byte written by its place in a run. -/
theorem toNat_ofNat_run (first n : Nat) (hfit : first + n < 256) :
    (BitVec.ofNat 8 (first + n)).toNat = first + n := by
  rw [BitVec.toNat_ofNat, Nat.mod_eq_of_lt hfit]

theorem decodeChar_upper (n : Nat) (hn : n < 26) : decodeChar (BitVec.ofNat 8 (0x41 + n)) = BitVec.ofNat 6 n := by
  unfold decodeChar
  rw [toNat_ofNat_run 0x41 n (by omega), if_pos (by omega), Nat.add_sub_cancel_left]

theorem decodeChar_lower (n : Nat) (hn : n < 26) :
    decodeChar (BitVec.ofNat 8 (0x61 + n)) = BitVec.ofNat 6 (26 + n) := by
  unfold decodeChar
  rw [toNat_ofNat_run 0x61 n (by omega), if_neg (by omega), if_pos (by omega), Nat.add_sub_cancel_left, Nat.add_comm]

theorem decodeChar_digit (n : Nat) (hn : n < 10) :
    decodeChar (BitVec.ofNat 8 (0x30 + n)) = BitVec.ofNat 6 (52 + n) := by
  unfold decodeChar
  rw [toNat_ofNat_run 0x30 n (by omega), if_neg (by omega), if_neg (by omega), if_pos (by omega),
    Nat.add_sub_cancel_left, Nat.add_comm]

theorem decodeChar_plus : decodeChar 0x2B = 62 := rfl

theorem decodeChar_slash : decodeChar 0x2F = 63 := rfl

/-- Outside the alphabet none of R45's conditions holds, which leaves the 0 of the last branch. -/
theorem decodeChar_of_not_inAlphabet (b : Byte) (h : inAlphabet b = false) : decodeChar b = 0 := by
  simp only [inAlphabet, Bool.or_eq_false_iff, Bool.and_eq_false_iff, decide_eq_false_iff_not, beq_eq_false_iff_ne] at h
  obtain ⟨⟨⟨⟨hupper, hlower⟩, hdigit⟩, hplus⟩, hslash⟩ := h
  unfold decodeChar
  rw [if_neg (by omega), if_neg (by omega), if_neg (by omega), if_neg hplus, if_neg hslash]

/-- The byte of the alphabet that spells a symbol (30_encoding.md R32, R33): `decodeChar` backwards. -/
def alphabetByte (v : Symbol) : Byte :=
  if v.toNat < 26 then BitVec.ofNat 8 (0x41 + v.toNat)
  else if v.toNat < 52 then BitVec.ofNat 8 (0x61 + (v.toNat - 26))
  else if v.toNat < 62 then BitVec.ofNat 8 (0x30 + (v.toNat - 52))
  else if v.toNat = 62 then 0x2B
  else 0x2F

/-- The runs of the alphabet decode to runs of symbols that do not overlap, so the byte can be told from its symbol. -/
theorem alphabetByte_decodeChar (b : Byte) (h : inAlphabet b = true) : alphabetByte (decodeChar b) = b := by
  obtain ⟨n, hn, rfl⟩ | ⟨n, hn, rfl⟩ | ⟨n, hn, rfl⟩ | rfl | rfl := (inAlphabet_iff b).mp h
  · have hv : (BitVec.ofNat 6 n).toNat = n := Nat.mod_eq_of_lt (by omega)
    rw [decodeChar_upper n hn, alphabetByte, hv, if_pos hn]
  · have hv : (BitVec.ofNat 6 (26 + n)).toNat = 26 + n := Nat.mod_eq_of_lt (by omega)
    rw [decodeChar_lower n hn, alphabetByte, hv, if_neg (by omega), if_pos (by omega), Nat.add_sub_cancel_left]
  · have hv : (BitVec.ofNat 6 (52 + n)).toNat = 52 + n := Nat.mod_eq_of_lt (by omega)
    rw [decodeChar_digit n hn, alphabetByte, hv, if_neg (by omega), if_neg (by omega), if_pos (by omega),
      Nat.add_sub_cancel_left]
  · rfl
  · rfl

theorem decodeChar_injOn_alphabet (b b' : Byte) (hb : inAlphabet b = true) (hb' : inAlphabet b' = true)
    (h : decodeChar b = decodeChar b') : b = b' := by
  rw [← alphabetByte_decodeChar b hb, h, alphabetByte_decodeChar b' hb']

/-- Settles O8, run by run; injectivity comes from the inverse `alphabetByte`. -/
theorem decodeCharFollowsTheAlphabet : Obligations.DecodeCharFollowsTheAlphabet :=
  ⟨decodeChar_upper, decodeChar_lower, decodeChar_digit, decodeChar_plus, decodeChar_slash,
    decodeChar_of_not_inAlphabet, decodeChar_injOn_alphabet⟩

/-! ## `ENDB` and `WNOP` -/

theorem exec_endb (s : State) (hr : s.rstDone = true) : exec .endb s = .next (s.clearPend.answer Reply.accepted) :=
  afterFirstReset_of_rstDone s _ hr

theorem exec_wnop (s : State) (hr : s.rstDone = true) : exec .wnop s = .next (s.answer Reply.accepted) :=
  afterFirstReset_of_rstDone s _ hr

/-- Settles O22: the state `ENDB` leaves differs in `pend` and the answer, and with `pend` 0 the write port is ready. -/
theorem endbForgetsAHeldByte : Obligations.EndbForgetsAHeldByte := by
  refine ⟨rfl, fun w hvalid hend => congrArg Except.ok (decodeWrite_of_end w hvalid hend), fun s hr => ?_⟩
  have hready : (s.clearPend.answer Reply.accepted).wrReady = true := State.wrReady_of_not_pend _ rfl
  have hcontents : (s.clearPend.answer Reply.accepted).contents = s.contents := by
    rw [State.contents_answer, State.contents_clearPend]
  exact ⟨_, exec_endb s hr, rfl, rfl, hready, hcontents⟩

/-- Settles O23: bit 9 alone makes a word a `WNOP`, and the state it leaves differs in the answer only. -/
theorem wnopChangesNothing : Obligations.WnopChangesNothing :=
  ⟨rfl, fun w hvalid => congrArg Except.ok (decodeWrite_of_not_valid w hvalid), exec_wnop⟩

end Sys2Proof.Machine
end

section
/-! Proofs about the FIFO (41_fifo.md): `Push` and `Pop` on the contents (R55, R56), the two read-port operations (R57,
R58), and that an underrun leaves no trace (R61). -/

namespace Sys2Proof.Machine

/-! ## What the operations leave after the first reset -/

theorem exec_rnop (s : State) (hr : s.rstDone = true) : exec .rnop s = .next s.answerNoSample :=
  afterFirstReset_of_rstDone s _ hr

theorem exec_pop (s : State) (hr : s.rstDone = true) : exec .pop s = .next s.takeSample :=
  afterFirstReset_of_rstDone s _ hr

theorem exec_putb (d : Byte) (s : State) (hr : s.rstDone = true) : exec (.putb d) s = .next (s.takeByte d) :=
  afterFirstReset_of_rstDone s _ hr

theorem State.takeSample_of_empty (s : State) (hc : s.count = 0) : s.takeSample = s.answerNoSample := if_pos hc

theorem State.takeSample_of_nonempty (s : State) (hc : s.count ≠ 0) :
    s.takeSample = s.dropOldest.answer (Reply.sample s.oldest) := if_neg hc

/-- With a byte held and room for the sample of the pair, `PUTB` is the push of R49's second branch. -/
theorem State.takeByte_of_room (s : State) (d : Byte) (hp : s.pend = true) (hc : s.count ≠ s.depth) :
    s.takeByte d = ((s.push (decodeSample s.loByte d)).clearPend).answer Reply.accepted := by
  simp [State.takeByte, hp, hc]

/-! ## The read port -/

@[simp] theorem State.block_answer (s : State) (r : Reply) : (s.answer r).block = s.block := rfl

@[simp] theorem State.block_answerNoSample (s : State) : s.answerNoSample.block = s.block := rfl

@[simp] theorem State.answerNoSample_inputs (s : State) : s.answerNoSample.inputs = s.inputs := rfl

@[simp] theorem State.answerNoSample_reply (s : State) : s.answerNoSample.reply = Reply.noSample s.draws := rfl

/-- The sample that `Pop()` returns has the pattern the entry at `rp` holds, whatever that pattern is. -/
@[simp] theorem State.bits16_oldest (s : State) : bits16 s.oldest = s.entry s.rp := bits16_int16 _

theorem Reply.sample_oldest (s : State) : Reply.sample s.oldest = ⟨.accepted, some ⟨true, s.entry s.rp⟩⟩ := by
  rw [Reply.sample, State.bits16_oldest]

/-- Settles O26: the state `RNOP` leaves differs in the answer and in the draw made for its `rd_data`. -/
theorem rnopChangesNothing : Obligations.RnopChangesNothing :=
  ⟨rfl, decode_read_zero, fun s hr =>
    ⟨s.answerNoSample, _, exec_rnop s hr, s.block_answerNoSample, s.answerNoSample_inputs, s.answerNoSample_reply⟩⟩

/-- Settles O25, by the two cases of `State.takeSample`. -/
theorem popAnswersByTheCount : Obligations.PopAnswersByTheCount := by
  refine ⟨rfl, decode_read_one, fun s hr => ⟨fun hc => ?_, fun hc => ?_⟩⟩
  · have hpop : exec .pop s = .next s.answerNoSample := by rw [exec_pop s hr, s.takeSample_of_empty hc]
    exact ⟨_, _, hpop, s.block_answerNoSample, s.answerNoSample_inputs, s.answerNoSample_reply⟩
  · rw [exec_pop s hr, s.takeSample_of_nonempty hc, Reply.sample_oldest]
    rfl

/-! ## The occupied window -/

@[simp] theorem State.windowIndex_zero (s : State) (hrp : s.rp < s.depth) : s.windowIndex 0 = s.rp :=
  Nat.mod_eq_of_lt hrp

/-- `Pop` moves the window by one: what was at place `k + 1` is now at place `k`. -/
@[simp] theorem State.windowIndex_dropOldest (s : State) (k : Nat) :
    s.dropOldest.windowIndex k = s.windowIndex (k + 1) := by
  have hplace : s.rp + 1 + k = s.rp + (k + 1) := by omega
  rw [State.windowIndex, State.windowIndex, State.dropOldest_rp, State.dropOldest_depth, State.nextIndex,
    Nat.mod_add_mod, hplace]

@[simp] theorem State.windowIndex_push (s : State) (x : Int) (k : Nat) :
    (s.push x).windowIndex k = s.windowIndex k := rfl

/-- Fewer than `DEPTH` places in a row, modulo `DEPTH`, are distinct indices. -/
theorem State.windowIndex_inj (s : State) {k l : Nat} (hk : k < s.depth) (hl : l < s.depth)
    (h : s.windowIndex k = s.windowIndex l) : k = l :=
  (Nat.ModEq.add_left_cancel' s.rp h).eq_of_lt_of_lt hk hl

/-! ## `Pop` and `Push` on the contents -/

/-- R56 on the contents: the oldest sample comes off the front. -/
theorem State.contents_eq_oldest_cons (s : State) (hrp : s.rp < s.depth) (hc : 0 < s.count) :
    s.contents = s.oldest :: s.dropOldest.contents := by
  obtain ⟨n, hn⟩ := Nat.exists_eq_add_one.mpr hc
  simp [State.contents, State.oldest, hn, List.range_succ_eq_map, Function.comp_def, hrp]

/-- R55 on the contents. With room left, `wp` is the index just past the window and none inside it, so no queued sample
is overwritten. -/
theorem State.contents_push (s : State) (x : Int) (hm : s.mem.wf = true) (hwp : s.wp = s.windowIndex s.count)
    (hc : s.count < s.depth) (hx : int16 (bits16 x) = x) : (s.push x).contents = s.contents ++ [x] := by
  have hkept : ∀ k ∈ List.range s.count,
      int16 ((s.push x).entry (s.windowIndex k)) = int16 (s.entry (s.windowIndex k)) := by
    intro k hk
    have hlt : k < s.count := List.mem_range.mp hk
    have hne : s.windowIndex k ≠ s.wp := fun h =>
      hlt.ne (s.windowIndex_inj (hlt.trans hc) hc (h.trans hwp))
    rw [s.entry_push hm, if_neg hne]
  have hnew : int16 ((s.push x).entry (s.windowIndex s.count)) = x := by
    rw [s.entry_push hm, if_pos hwp.symm, hx]
  simp only [State.contents, State.push_count, State.windowIndex_push, List.range_succ, List.map_append,
    List.map_singleton, List.map_congr_left hkept, hnew]

/-- 30_encoding.md R35: a 12-bit code less 2048, times 16, fits `s16`. -/
theorem codeSample_range (v : Code) : -32768 ≤ codeSample v ∧ codeSample v ≤ 32752 := by
  have hv := v.isLt
  unfold codeSample
  omega

theorem int16_bits16_decodeSample (low high : Byte) :
    int16 (bits16 (decodeSample low high)) = decodeSample low high := by
  obtain ⟨hlo, hhi⟩ := codeSample_range (pairCode low high)
  exact int16_bits16 _ hlo (hhi.trans_lt (by decide))

/-- Settles O24: the entries by `State.entry_push`, the contents by `State.contents_push`; `pend` and the answer, which
`PUTB` sets besides, are no part of either. -/
theorem pushAppendsToTheContents : Obligations.PushAppendsToTheContents := by
  intro d s ⟨_, hwf, hinv⟩ hr hp hc
  obtain ⟨-, -, -, hwp, -, -, -⟩ := hinv hr
  have hexec : exec (.putb d) s = .next (((s.push (decodeSample s.loByte d)).clearPend).answer Reply.accepted) := by
    rw [exec_putb d s hr, s.takeByte_of_room d hp hc.ne]
  refine ⟨_, hexec, ?_, fun j hj => ?_, rfl, rfl, rfl, ?_, rfl, rfl⟩
  · rw [State.entry_answer, State.entry_clearPend, s.entry_push hwf, if_pos rfl]
  · rw [State.entry_answer, State.entry_clearPend, s.entry_push hwf, if_neg hj]
  · rw [State.contents_answer, State.contents_clearPend]
    exact s.contents_push _ hwf hwp hc (int16_bits16_decodeSample s.loByte d)

/-- Where there is room, `wr_ready` is 1 whether or not a first byte is held. -/
theorem State.wrReady_of_not_full (s : State) (h : s.full = false) : s.wrReady = true := by
  rw [State.full_eq_false] at h
  simp [State.wrReady, h]

/-- Settles O27: `State.contents_eq_oldest_cons`, and after a `Pop` the count is below `DEPTH`. -/
theorem popRemovesTheOldestSample : Obligations.PopRemovesTheOldestSample := by
  intro s ⟨_, _, hinv⟩ hr hc
  obtain ⟨hle, hrp, -, -, -, -, -⟩ := hinv hr
  have hexec : exec .pop s = .next (s.dropOldest.answer (Reply.sample s.oldest)) := by
    rw [exec_pop s hr, s.takeSample_of_nonempty hc.ne']
  have hfull : (s.dropOldest.answer (Reply.sample s.oldest)).full = false := by
    rw [State.full_eq_false, State.answer_count, State.answer_depth, State.dropOldest_count, State.dropOldest_depth]
    omega
  exact ⟨_, s.oldest, hexec, rfl, s.contents_eq_oldest_cons hrp hc, rfl, s.bits16_oldest, rfl, rfl, rfl, rfl, hfull,
    State.wrReady_of_not_full _ hfull, Nat.sub_add_cancel hc⟩

/-! ## States with the same block

An underrun leaves a state with the same block. Such states differ in the draws still to come, which show only in
`rd_data` with `rd_valid = 0` and in what `RST` leaves unspecified. -/

theorem SameButUnspecified.of_block_eq {s t : State} (h : s.block = t.block) : SameButUnspecified s t :=
  ⟨(congrArg State.pend h :), fun _ => (congrArg State.loByte h :), (congrArg State.wp h :), (congrArg State.rp h :),
    (congrArg State.count h :), (congrArg State.depth h :), (congrArg State.rstDone h :),
    fun k _ => congrArg (fun b => b.entry (b.windowIndex k)) h⟩

/-- Nothing is held or queued after `RST`, so nothing it leaves unspecified is compared. -/
theorem SameButUnspecified.cleared {s t : State} (h : s.depth = t.depth) : SameButUnspecified s.cleared t.cleared :=
  ⟨rfl, fun hp => absurd hp Bool.false_ne_true, rfl, rfl, rfl, h, rfl, fun _ hk => absurd hk (Nat.not_lt_zero _)⟩

/-- What `PUTB` does and answers depends on the block alone. -/
theorem State.takeByte_congr_block {s t : State} (d : Byte) (h : s.block = t.block) :
    (s.takeByte d).block = (t.takeByte d).block ∧ (s.takeByte d).reply = (t.takeByte d).reply := by
  have hpend : s.pend = t.pend := (congrArg State.pend h :)
  have hcount : s.count = t.count := (congrArg State.count h :)
  have hdepth : s.depth = t.depth := (congrArg State.depth h :)
  have hlo : s.loByte = t.loByte := (congrArg State.loByte h :)
  unfold State.takeByte
  rw [hpend, hcount, hdepth, hlo]
  split
  · exact ⟨h, rfl⟩
  · split
    · exact ⟨congrArg (fun b => (b.push (decodeSample t.loByte d)).clearPend) h, rfl⟩
    · exact ⟨congrArg (fun b => b.keepByte d) h, rfl⟩

/-- What `POP` does, and what of its answer can be seen, depends on the block alone. -/
theorem State.takeSample_congr_block {s t : State} (h : s.block = t.block) :
    s.takeSample.block = t.takeSample.block ∧ s.takeSample.reply.visible = t.takeSample.reply.visible := by
  have hcount : s.count = t.count := (congrArg State.count h :)
  obtain ⟨hc, he⟩ | ⟨hc, he⟩ := s.takeSample_cases
  · rw [he, t.takeSample_of_empty (hcount ▸ hc)]
    exact ⟨h, rfl⟩
  · rw [he, t.takeSample_of_nonempty (hcount ▸ hc)]
    have holdest : s.oldest = t.oldest := (congrArg State.oldest h :)
    exact ⟨congrArg State.dropOldest h, by rw [State.answer_reply, State.answer_reply, holdest]⟩

/-- Every operation runs alike from two states with the same block. -/
theorem exec_congr_block (i : Instr) {s t : State} (h : s.block = t.block) (hr : t.rstDone = true) :
    ∃ u v, exec i s = .next u ∧ exec i t = .next v ∧ SameButUnspecified u v ∧ u.reply.visible = v.reply.visible := by
  have hs : s.rstDone = true := (congrArg State.rstDone h).trans hr
  cases i with
  | wnop => exact ⟨_, _, exec_wnop s hs, exec_wnop t hr, .of_block_eq h, rfl⟩
  | putb d =>
    obtain ⟨hblock, hreply⟩ := State.takeByte_congr_block d h
    exact ⟨_, _, exec_putb d s hs, exec_putb d t hr, .of_block_eq hblock, congrArg Reply.visible hreply⟩
  | endb => exact ⟨_, _, exec_endb s hs, exec_endb t hr, .of_block_eq (congrArg State.clearPend h), rfl⟩
  | rnop => exact ⟨_, _, exec_rnop s hs, exec_rnop t hr, .of_block_eq h, rfl⟩
  | pop =>
    obtain ⟨hblock, hvisible⟩ := State.takeSample_congr_block h
    exact ⟨_, _, exec_pop s hs, exec_pop t hr, .of_block_eq hblock, hvisible⟩
  | rst => exact ⟨_, _, exec_rst s, exec_rst t, .cleared (congrArg State.depth h :), rfl⟩

/-- Settles O28: the underrun keeps the block, and the next operation sees no more than that. -/
theorem underrunLeavesNoTrace : Obligations.UnderrunLeavesNoTrace := by
  intro s hr hc
  have hpop : exec .pop s = .next s.answerNoSample := by rw [exec_pop s hr, s.takeSample_of_empty hc]
  exact ⟨_, _, hpop, s.answerNoSample_reply, s.block_answerNoSample, fun i =>
    exec_congr_block i s.block_answerNoSample hr⟩

end Sys2Proof.Machine
end

section
/-! Proofs about the values of the codec: the code a pair spells (30_encoding.md R34), its sample and the sample's
pattern (40_codec.md R46, R47, R54), the byte form (20_memory.md R24) and terminators left on a line (R75). -/

namespace Sys2Proof.Machine

/-! ## The code of a pair -/

/-- The symbols do not overlap in the code, so "or" is a sum. -/
theorem toNat_pairCode (low high : Byte) :
    (pairCode low high).toNat = 64 * (decodeChar high).toNat + (decodeChar low).toNat := by
  have hl := (decodeChar low).isLt
  have hh := (decodeChar high).isLt
  have hor : (decodeChar high).toNat <<< 6 + (decodeChar low).toNat =
      (decodeChar high).toNat <<< 6 ||| (decodeChar low).toNat := Nat.shiftLeft_add_eq_or_of_lt hl _
  rw [Nat.shiftLeft_eq] at hor
  have hshift : (decodeChar high).toNat * 2 ^ 6 % 2 ^ 12 = (decodeChar high).toNat * 2 ^ 6 :=
    Nat.mod_eq_of_lt (by omega)
  rw [pairCode, BitVec.toNat_or, BitVec.toNat_shiftLeft, BitVec.toNat_setWidth_of_le (by omega),
    BitVec.toNat_setWidth_of_le (by omega), Nat.shiftLeft_eq, hshift, ← hor]
  omega

/-- The layout of R34: the first byte gives bits 5 to 0, the second bits 11 to 6. -/
theorem getLsbD_pairCode (low high : Byte) (i : Nat) (hi : i < 12) :
    (pairCode low high).getLsbD i = if i < 6 then (decodeChar low).getLsbD i else (decodeChar high).getLsbD (i - 6) := by
  by_cases h : i < 6
  · simp [pairCode, hi, h]
  · have hlow : (decodeChar low).getLsbD i = false := BitVec.getLsbD_of_ge _ _ (by omega)
    simp [pairCode, hi, h, hlow]

/-- Two pairs spell the same code only if they spell the same symbols. -/
theorem pairCode_inj {low high low' high' : Byte} (h : pairCode low high = pairCode low' high') :
    decodeChar low = decodeChar low' ∧ decodeChar high = decodeChar high' := by
  have hcode := congrArg BitVec.toNat h
  rw [toNat_pairCode, toNat_pairCode] at hcode
  have hl := (decodeChar low).isLt
  have hl' := (decodeChar low').isLt
  exact ⟨BitVec.eq_of_toNat_eq (by omega), BitVec.eq_of_toNat_eq (by omega)⟩

/-! ## The byte that spells a symbol

`alphabetByte_decodeChar` is the other direction. -/

theorem inAlphabet_alphabetByte (v : Symbol) : inAlphabet (alphabetByte v) = true := by
  revert v
  decide

theorem decodeChar_alphabetByte (v : Symbol) : decodeChar (alphabetByte v) = v := by
  revert v
  decide

/-- The low and the high symbol of a code, each by its byte of the alphabet, spell the code. -/
theorem pairCode_alphabetByte (v : Code) :
    pairCode (alphabetByte (BitVec.ofNat 6 v.toNat)) (alphabetByte (BitVec.ofNat 6 (v.toNat / 64))) = v := by
  have hv := v.isLt
  apply BitVec.eq_of_toNat_eq
  rw [toNat_pairCode, decodeChar_alphabetByte, decodeChar_alphabetByte, BitVec.toNat_ofNat, BitVec.toNat_ofNat]
  omega

/-- Settles O9: the pair of `pairCode_alphabetByte`, and no other because `decodeChar` is injective on the alphabet. -/
theorem everyCodeIsSpeltByOneAlphabetPair : Obligations.EveryCodeIsSpeltByOneAlphabetPair := by
  refine ⟨getLsbD_pairCode, fun v => ⟨_, _, ⟨inAlphabet_alphabetByte _, inAlphabet_alphabetByte _,
    pairCode_alphabetByte v⟩, fun low high hlow hhigh hcode => ?_⟩⟩
  obtain ⟨hl, hh⟩ := pairCode_inj (hcode.trans (pairCode_alphabetByte v).symm)
  exact ⟨decodeChar_injOn_alphabet _ _ hlow (inAlphabet_alphabetByte _) hl,
    decodeChar_injOn_alphabet _ _ hhigh (inAlphabet_alphabetByte _) hh⟩

/-! ## The sample of a pair -/

/-- The sample in the terms of the two symbols. -/
theorem decodeSample_eq (low high : Byte) :
    decodeSample low high = 1024 * ((decodeChar high).toNat : Int) + 16 * ((decodeChar low).toNat : Int) - 32768 := by
  rw [decodeSample, codeSample, toNat_pairCode]
  omega

/-- A byte enters a sample by its symbol only. -/
theorem decodeSample_congr {low high low' high' : Byte} (hl : decodeChar low = decodeChar low')
    (hh : decodeChar high = decodeChar high') : decodeSample low high = decodeSample low' high' := by
  rw [decodeSample_eq, decodeSample_eq, hl, hh]

theorem codeSample_mod (v : Code) : codeSample v % 16 = 0 := Int.mul_emod_left _ _

theorem codeSample_strictMono (v v' : Code) (h : v.toNat < v'.toNat) : codeSample v < codeSample v' := by
  unfold codeSample
  omega

/-- Settles O10, by `toNat_pairCode` and the symbol 0 of a byte outside the alphabet. -/
theorem decodeSampleScalesTheCode : Obligations.DecodeSampleScalesTheCode := by
  refine fun low high => ⟨toNat_pairCode low high, rfl, int16_bits16_decodeSample low high, fun hl => ?_, fun hh => ?_⟩
  · have hzero : (decodeChar low).toNat = 0 := congrArg BitVec.toNat (decodeChar_of_not_inAlphabet low hl)
    rw [decodeSample_eq, hzero]
    omega
  · have hzero : (decodeChar high).toNat = 0 := congrArg BitVec.toNat (decodeChar_of_not_inAlphabet high hh)
    rw [decodeSample_eq, hzero]
    omega

/-- Every multiple of 16 in the range is the sample of a code, and every code of a pair. -/
theorem exists_decodeSample_eq (k : Int) (hlo : -2048 ≤ k) (hhi : k ≤ 2047) :
    ∃ low high : Byte, decodeSample low high = 16 * k := by
  refine ⟨_, _, (congrArg codeSample (pairCode_alphabetByte (BitVec.ofNat 12 (k + 2048).toNat))).trans ?_⟩
  rw [codeSample, BitVec.toNat_ofNat]
  omega

/-- Settles O12, from the range, the factor 16 and the monotone formula of `codeSample`. -/
theorem decodedSamplesFitSixteenBits : Obligations.DecodedSamplesFitSixteenBits := by
  refine ⟨fun low high => ?_, codeSample_strictMono, exists_decodeSample_eq⟩
  obtain ⟨hlo, hhi⟩ := codeSample_range (pairCode low high)
  exact ⟨hlo, hhi, codeSample_mod _, int16_bits16_decodeSample low high⟩

/-! ## The pattern of a sample -/

/-- A pattern as a number (`bits16` of 00_scope.md section 6). -/
theorem toNat_bits16 (x : Int) : (bits16 x).toNat = (x % 65536).toNat := BitVec.toNat_ofInt ..

/-- Inverting the top bit of a code adds 2048 to it, modulo 4096. -/
theorem xor_topBit (v : Code) : v ^^^ 0x800 = BitVec.ofNat 12 (2 ^ 11 + v.toNat) := by
  apply BitVec.eq_of_getLsbD_eq
  intro i hi
  have htop : (0x800 : Code).getLsbD i = decide (i = 11) := by
    revert i
    decide
  rw [BitVec.getLsbD_xor, htop, BitVec.getLsbD_ofNat, ← BitVec.testBit_toNat]
  obtain rfl | hlt : i = 11 ∨ i < 11 := by omega
  · rw [Nat.testBit_two_pow_add_eq, decide_eq_true rfl, decide_eq_true hi, Bool.xor_true, Bool.true_and]
  · rw [Nat.testBit_two_pow_add_gt hlt, decide_eq_false hlt.ne, decide_eq_true hi, Bool.xor_false, Bool.true_and]

/-- R47 for a code: with offset binary turned into two's complement, the pattern is the code 4 places up. -/
theorem bits16_codeSample (v : Code) : bits16 (codeSample v) = (v ^^^ 0x800).setWidth 16 <<< 4 := by
  have hv := v.isLt
  apply BitVec.eq_of_toNat_eq
  rw [toNat_bits16, BitVec.toNat_shiftLeft, BitVec.toNat_setWidth_of_le (by omega), xor_topBit,
    BitVec.toNat_ofNat, codeSample, Nat.shiftLeft_eq]
  omega

/-- Settles O11: the bits of `bits16_codeSample`, field by field with `getLsbD_pairCode`. -/
theorem samplePatternIsTheShiftedCode : Obligations.SamplePatternIsTheShiftedCode := by
  intro low high
  have hpattern : bits16 (decodeSample low high) = (pairCode low high ^^^ 0x800).setWidth 16 <<< 4 :=
    bits16_codeSample _
  refine ⟨hpattern, fun i hi => ?_⟩
  by_cases h4 : i < 4
  · simp [hpattern, h4]
  · have htop : (0x800 : Code).getLsbD (i - 4) = decide (i = 15) := by
      revert i
      decide
    have hbit : (bits16 (decodeSample low high)).getLsbD i =
        ((pairCode low high).getLsbD (i - 4) ^^ decide (i = 15)) := by
      rw [← htop, hpattern, BitVec.getLsbD_shiftLeft, BitVec.getLsbD_setWidth, BitVec.getLsbD_xor]
      simp only [hi, h4, show i - 4 < 16 by omega, decide_true, decide_false, Bool.not_false, Bool.true_and]
    rw [hbit, getLsbD_pairCode low high (i - 4) (by omega), if_neg h4]
    by_cases h10 : i < 10
    · simp [h10, show i - 4 < 6 by omega, show i ≠ 15 by omega]
    · have hplace : i - 4 - 6 = i - 10 := by omega
      rw [if_neg (by omega), if_neg h10, hplace]
      by_cases h15 : i < 15
      · simp [h15, h15.ne]
      · obtain rfl : i = 15 := by omega
        simp

/-! ## The byte form -/

theorem sampleBytes_eq (p : Sample) : sampleBytes p = [BitVec.ofNat 8 p.toNat, BitVec.ofNat 8 (p.toNat / 256)] := by
  rw [sampleBytes, BitVec.extractLsb', BitVec.extractLsb', Nat.shiftRight_zero, Nat.shiftRight_eq_div_pow]

/-- A multiple of 16 keeps four zeros at the bottom of its pattern. -/
theorem toNat_bits16_mod (x : Int) (hx : x % 16 = 0) : (bits16 x).toNat % 16 = 0 := by
  rw [toNat_bits16]
  omega

/-- Settles O14: the two halves of a pattern, and the four zeros of a decoded one. -/
theorem byteFormIsLowByteFirst : Obligations.ByteFormIsLowByteFirst := by
  refine ⟨sampleBytes_eq, fun _ _ => rfl, fun low high b0 b1 h => ?_⟩
  rw [sampleBytes_eq, List.cons.injEq] at h
  obtain ⟨rfl, -⟩ := h
  have hmod := toNat_bits16_mod (decodeSample low high) (codeSample_mod _)
  rw [BitVec.toNat_ofNat]
  omega

/-! ## `decode_buffer` of a longer buffer -/

/-- Pairs are taken from the start, so a first part of even length decodes by itself. -/
theorem decodeBuffer_append : ∀ (bytes more : List Byte), bytes.length % 2 = 0 →
    decodeBuffer (bytes ++ more) = decodeBuffer bytes ++ decodeBuffer more
  | [], _, _ => rfl
  | [_], _, h => by simp at h
  | low :: high :: rest, more, h => by
    have hrest : rest.length % 2 = 0 := by
      rw [List.length_cons, List.length_cons] at h
      omega
    exact congrArg (decodeSample low high :: ·) (decodeBuffer_append rest more hrest)

/-- Settles O15: what follows a line of even length decodes by itself, and outside the alphabet the symbol is that of
`A`. -/
theorem terminatorsLeftOnALine : Obligations.TerminatorsLeftOnALine := by
  refine ⟨fun bytes b h => ?_, fun bytes h => ?_, fun b d h => ?_⟩
  · rw [decodeBuffer_append bytes _ h, decodeBuffer_one, List.append_nil]
  · rw [decodeBuffer_append bytes _ h]
    rfl
  · have hsymbol : decodeChar b = decodeChar 0x41 := decodeChar_of_not_inAlphabet b h
    exact ⟨decodeSample_congr hsymbol rfl, decodeSample_congr rfl hsymbol⟩

end Sys2Proof.Machine
end

section
/-! Proofs about single operations and steps: what the write port answers (40_codec.md R49, R53), that every operation
runs after the first reset (60_exceptions.md R65), and the step of each thing presented (00_scope.md section 4). -/

namespace Sys2Proof.Machine

/-! ## Every operation runs -/

/-- R65: the type of faults is empty. -/
theorem exec_ne_fault (i : Instr) (s : State) (f : Fault) : exec i s ≠ .fault f := nomatch f

/-- Whatever gave a next state, a reset has happened there: `RST` records it and the others need it. -/
theorem rstDone_of_exec {i : Instr} {s t : State} (h : exec i s = .next t) : t.rstDone = true := by
  obtain ⟨-, rfl⟩ | ⟨hr, h⟩ := exec_cases i s t h
  · rfl
  · obtain ⟨-, rfl⟩ | ⟨-, rfl⟩ | ⟨-, rfl⟩ | ⟨-, -, rfl⟩ | ⟨-, -, rfl⟩ | ⟨_, -, -, -, rfl⟩ | ⟨_, -, -, rfl⟩ |
      ⟨_, -, -, -, rfl⟩ := h <;> exact hr

theorem exists_exec (i : Instr) (s : State) (hr : s.rstDone = true) : ∃ t, exec i s = .next t := by
  cases h : exec i s with
  | next t => exact ⟨t, rfl⟩
  | fault f => exact absurd h (exec_ne_fault i s f)
  | refused r =>
    obtain ⟨-, hnot, -⟩ := (exec_eq_refused i s r).mp h
    exact absurd (hr.symm.trans hnot) (by decide)

/-! ## The step of each thing presented -/

theorem step_of_nothing (s : State) (h : s.inputs = []) : step s = .next (s.answer Reply.nothing) := by
  simp [step, h]

theorem step_of_clock (s : State) (v : BitVec 12) (rest : List Input) (h : s.inputs = .clock v :: rest) :
    step s = .next ((s.withInputs rest).sampleClock v) := by
  simp [step, h]

theorem step_of_command (s : State) (c : Command) (rest : List Input) (i : Instr) (h : s.inputs = .command c :: rest)
    (hd : decode c = .ok i) : step s = exec i (s.withInputs rest) := by
  simp [step, h, hd]

theorem step_of_no_operation (s : State) (c : Command) (rest : List Input) (e : DecodeError)
    (h : s.inputs = .command c :: rest) (hd : decode c = .error e) :
    step s = .next ((s.withInputs rest).answer Reply.nothing) := by
  simp [step, h, hd]

/-- Sampling a clock is no reset and needs none. -/
theorem rstDone_sampleClock (s : State) (v : BitVec 12) : (s.sampleClock v).rstDone = s.rstDone :=
  (congrArg State.rstDone (s.sampleClock_block v) :)

/-- Settles O32, by what is presented. -/
theorem everyOperationRunsAfterReset : Obligations.EveryOperationRunsAfterReset := by
  have hexec : ∀ (i : Instr) (s : State), s.rstDone = true → ∃ t, exec i s = .next t ∧ t.rstDone = true := by
    intro i s hr
    obtain ⟨t, ht⟩ := exists_exec i s hr
    exact ⟨t, ht, rstDone_of_exec ht⟩
  refine ⟨exec_ne_fault, hexec, fun s hr => ?_⟩
  match h : s.inputs with
  | [] => exact ⟨_, step_of_nothing s h, hr⟩
  | .clock v :: rest => exact ⟨_, step_of_clock s v rest h, (rstDone_sampleClock _ v).trans hr⟩
  | .command c :: rest =>
    cases hd : decode c with
    | ok i => exact step_of_command s c rest i h hd ▸ hexec i _ hr
    | error e => exact ⟨_, step_of_no_operation s c rest e h hd, hr⟩

/-- Settles O6: the two steps that run no operation. -/
theorem nothingPresentedChangesNothing : Obligations.NothingPresentedChangesNothing :=
  ⟨step_of_nothing, fun s rest h => step_of_no_operation s _ rest _ h decode_reset_zero⟩

/-- A table word that decodes is presented as the command that its bytes make. -/
theorem tableInput_of_decodeTableWord (nbits w : Nat) (i : Instr) (h : decodeTableWord nbits w = some i) :
    ∃ c, tableInput nbits w = .command c ∧ decode c = .ok i := by
  unfold decodeTableWord at h
  unfold tableInput
  split at h
  · cases h
  · next hbits =>
    rw [if_neg hbits]
    unfold decodeBytes at h
    cases hc : commandOfBytes (tablePort nbits) (tableBytes nbits w) with
    | error e => simp [hc, Except.toOption] at h
    | ok c =>
      refine ⟨c, rfl, ?_⟩
      cases hd : decode c with
      | error e => simp [hc, hd, Except.toOption] at h
      | ok j => simpa [hc, hd, Except.toOption] using h

/-- Settles O5: both clauses are `step_of_command`. -/
theorem stepRunsTheDecodedOperation : Obligations.StepRunsTheDecodedOperation := by
  refine ⟨fun s c rest i h hd _ => step_of_command s c rest i h hd, fun s nbits w i h => ?_⟩
  obtain ⟨c, hc, hd⟩ := tableInput_of_decodeTableWord nbits w i h
  have hinputs : (s.withFetchWord nbits w).inputs = .command c :: s.inputs := congrArg (· :: s.inputs) hc
  exact step_of_command _ c s.inputs i hinputs hd

/-- Settles O4, word by word. -/
theorem wordsWrittenOutDecode : Obligations.WordsWrittenOutDecode :=
  ⟨rfl, rfl, rfl, rfl, rfl, rfl, rfl, rfl, rfl⟩

/-! ## `PUTB` -/

theorem State.takeByte_of_held (s : State) (d : Byte) (hp : s.pend = true) (hc : s.count = s.depth) :
    s.takeByte d = s.answer Reply.held := by
  simp [State.takeByte, hp, hc]

theorem State.takeByte_of_first (s : State) (d : Byte) (hp : s.pend = false) :
    s.takeByte d = (s.keepByte d).answer Reply.accepted := by
  simp [State.takeByte, hp]

/-- Settles O16, by the first branch of R49. -/
theorem putbKeepsAFirstByte : Obligations.PutbKeepsAFirstByte := by
  intro d s hr hp
  rw [exec_putb d s hr, s.takeByte_of_first d hp]
  rfl

/-- Settles O17, by the second branch of R49. -/
theorem putbPushesADecodedPair : Obligations.PutbPushesADecodedPair := by
  intro d s hr hp hc
  rw [exec_putb d s hr, s.takeByte_of_room d hp hc]
  rfl

/-- Settles O18: with `pend = 1` and no room the byte is held. -/
theorem putbIsHeldAtAFullFifo : Obligations.PutbIsHeldAtAFullFifo := by
  intro d s hr hp hc
  rw [exec_putb d s hr, s.takeByte_of_held d hp hc]
  rfl

/-- Settles O20: the state of a hold does not name the byte. -/
theorem holdIgnoresTheByte : Obligations.HoldIgnoresTheByte := by
  intro d d' s hp hc
  have hheld : s.takeByte d = s.takeByte d' := by rw [s.takeByte_of_held d hp hc, s.takeByte_of_held d' hp hc]
  exact congrArg (afterFirstReset s) hheld

/-- Settles O19, by the three branches of R49. -/
theorem putbIsAcceptedExactlyWhenReady : Obligations.PutbIsAcceptedExactlyWhenReady := by
  intro d s hr
  refine ⟨_, exec_putb d s hr, ?_⟩
  obtain ⟨hp, hc, ht⟩ | ⟨hp, ht⟩ | ⟨hp, hc, ht⟩ := s.takeByte_cases d
  · simp [ht, State.wrReady, hp, hc, Reply.held]
  · simp [ht, State.wrReady, hp, Reply.accepted]
  · simp [ht, State.wrReady, hp, hc, Reply.accepted]

/-- What `PUTB` does to everything but `lo_byte` and the stored sample is the same for every byte. -/
theorem State.takeByte_counters (s : State) (d d' : Byte) :
    (s.takeByte d).reply = (s.takeByte d').reply ∧ (s.takeByte d).pend = (s.takeByte d').pend ∧
    (s.takeByte d).count = (s.takeByte d').count ∧ (s.takeByte d).wp = (s.takeByte d').wp ∧
    (s.takeByte d).rp = (s.takeByte d').rp := by
  unfold State.takeByte
  split
  · simp
  · split <;> simp [State.nextIndex]

/-- Settles O21: `PUTB` treats every byte alike, and `ENDB` has no byte to look at. -/
theorem everyByteIsDecodedLeniently : Obligations.EveryByteIsDecodedLeniently := by
  refine fun d s hr => ⟨exists_exec _ s hr, fun d' t t' ht ht' => ?_, _, exec_endb s hr, rfl, rfl⟩
  rw [exec_putb _ s hr] at ht ht'
  obtain rfl := Host.Outcome.next.inj ht
  obtain rfl := Host.Outcome.next.inj ht'
  exact s.takeByte_counters d d'

/-! ## Reset -/

/-- Settles O30: `DEPTH` is at least 1, whatever the configuration, and the rest is `State.status_of_empty`. -/
theorem resetStateIsEmpty : Obligations.ResetStateIsEmpty :=
  ⟨rfl, rfl, rfl, rfl, rfl, rfl, Nat.succ_pos _, State.status_of_empty _ (Nat.succ_pos _) rfl rfl⟩

/-! ## Doing an operation twice -/

/-- Settles O40: but for `RST` the second state has the block of the first, and two `RST`s differ in unspecified values
only. -/
theorem idempotentOperations : Obligations.IdempotentOperations := by
  intro i s hi hr
  obtain rfl | rfl | rfl | rfl := hi
  · have hr : s.rstDone = true := hr.resolve_right (by decide)
    exact ⟨_, _, exec_endb s hr, exec_endb _ hr, .of_block_eq rfl, fun _ => rfl⟩
  · have hr : s.rstDone = true := hr.resolve_right (by decide)
    exact ⟨_, _, exec_wnop s hr, exec_wnop _ hr, .of_block_eq rfl, fun _ => rfl⟩
  · have hr : s.rstDone = true := hr.resolve_right (by decide)
    exact ⟨_, _, exec_rnop s hr, exec_rnop _ hr, .of_block_eq rfl, fun _ => rfl⟩
  · exact ⟨_, _, exec_rst s, exec_rst _, .cleared rfl, fun h => absurd rfl h⟩

end Sys2Proof.Machine
end

section
/-! Proofs about the invariant (10_state.md R14, R22) and the frames of the operations: that every step keeps the
invariant, what each port leaves unchanged, and who moves `count` (60_exceptions.md R70). -/

namespace Sys2Proof.Machine

/-! ## The invariant by its clauses -/

/-- What `Consistent` asks after the first reset, its clauses named (`consistent_iff`). -/
structure State.FifoInvariant (s : State) : Prop where
  depth_pos : 1 ≤ s.depth
  mem_wf : s.mem.wf = true
  count_le : s.count ≤ s.depth
  rp_lt : s.rp < s.depth
  wp_lt : s.wp < s.depth
  wp_eq : s.wp = s.windowIndex s.count
  index_lt : ∀ c ∈ s.mem, c.1 < s.depth
  low_zero : ∀ c ∈ s.mem, c.2 &&& 0x000F = 0
  written : ∀ k, k < s.count → (s.mem.read (s.windowIndex k)).isSome = true

theorem consistent_iff (s : State) (hr : s.rstDone = true) : Consistent s ↔ s.FifoInvariant := by
  constructor
  · rintro ⟨hdepth, hwf, hinv⟩
    obtain ⟨hcount, hrp, hwp, hwpeq, hindex, hlow, hwritten⟩ := hinv hr
    exact ⟨hdepth, hwf, hcount, hrp, hwp, hwpeq, hindex, hlow, hwritten⟩
  · rintro ⟨hdepth, hwf, hcount, hrp, hwp, hwpeq, hindex, hlow, hwritten⟩
    exact ⟨hdepth, hwf, fun _ => ⟨hcount, hrp, hwp, hwpeq, hindex, hlow, hwritten⟩⟩

/-- The invariant speaks of the block alone. -/
theorem Consistent.of_block_eq {s t : State} (h : Consistent s) (hb : t.block = s.block) : Consistent t := by
  have hiff : Consistent t.block ↔ Consistent s.block := by rw [hb]
  exact hiff.mpr h

namespace State.FifoInvariant

variable {s : State}

/-- The invariant speaks of the storage, its indices and `DEPTH` alone. -/
theorem of_fifo_eq {t : State} (h : s.FifoInvariant) (hmem : t.mem = s.mem) (hwp : t.wp = s.wp) (hrp : t.rp = s.rp)
    (hcount : t.count = s.count) (hdepth : t.depth = s.depth) : t.FifoInvariant := by
  obtain ⟨depth_pos, mem_wf, count_le, rp_lt, wp_lt, wp_eq, index_lt, low_zero, written⟩ := h
  constructor <;> simp only [State.windowIndex, hmem, hwp, hrp, hcount, hdepth] <;> assumption

/-- An empty FIFO with its pointers at 0 has nothing that could be out of order. -/
theorem of_empty (hdepth : 1 ≤ s.depth) (hmem : s.mem = []) (hwp : s.wp = 0) (hrp : s.rp = 0) (hcount : s.count = 0) :
    s.FifoInvariant := by
  have hwf : s.mem.wf = true := by rw [hmem]; rfl
  have hwindow : s.wp = s.windowIndex s.count := by simp [State.windowIndex, hwp, hrp, hcount]
  exact ⟨hdepth, hwf, by omega, by omega, by omega, hwindow, by simp [hmem], by simp [hmem], by omega⟩

/-- `Push` with room left: `wp` moves with the end of the window, and the place it leaves has been written. -/
theorem push (h : s.FifoInvariant) (hroom : s.count < s.depth) (x : Int) (hx : bits16 x &&& 0x000F = 0) :
    (s.push x).FifoInvariant where
  depth_pos := h.depth_pos
  mem_wf := Memory.write_wf _ h.mem_wf _ _
  count_le := hroom
  rp_lt := h.rp_lt
  wp_lt := Nat.mod_lt _ h.depth_pos
  wp_eq := by
    show (s.wp + 1) % s.depth = (s.rp + (s.count + 1)) % s.depth
    rw [h.wp_eq, State.windowIndex, Nat.mod_add_mod, Nat.add_assoc]
  index_lt := by
    intro c hc
    obtain rfl | hold := Memory.of_mem_write _ _ _ _ hc
    · exact h.wp_lt
    · exact h.index_lt c hold
  low_zero := by
    intro c hc
    obtain rfl | hold := Memory.of_mem_write _ _ _ _ hc
    · exact hx
    · exact h.low_zero c hold
  written := by
    intro k hk
    rw [State.windowIndex_push, State.push_mem, Memory.read_write _ h.mem_wf]
    split
    · rfl
    · next hne =>
      have hk : k ≠ s.count := fun he => hne (by rw [he, h.wp_eq])
      exact h.written k (by rw [State.push_count] at *; omega)

/-- `Pop`: `rp` moves with the start of the window. -/
theorem dropOldest (h : s.FifoInvariant) (hc : s.count ≠ 0) : s.dropOldest.FifoInvariant where
  depth_pos := h.depth_pos
  mem_wf := h.mem_wf
  count_le := (Nat.sub_le _ _).trans h.count_le
  rp_lt := Nat.mod_lt _ h.depth_pos
  wp_lt := h.wp_lt
  wp_eq := by
    have hend : s.count - 1 + 1 = s.count := by omega
    rw [State.windowIndex_dropOldest, State.dropOldest_count, hend]
    exact h.wp_eq
  index_lt := h.index_lt
  low_zero := h.low_zero
  written := by
    intro k hk
    rw [State.windowIndex_dropOldest]
    exact h.written (k + 1) (by rw [State.dropOldest_count] at hk; omega)

end State.FifoInvariant

/-! ## Every step keeps the invariant -/

/-- R35: the four low bits of a stored sample are zero. -/
theorem bits16_decodeSample_low (low high : Byte) : bits16 (decodeSample low high) &&& 0x000F = 0 := by
  have hmod := toNat_bits16_mod (decodeSample low high) (codeSample_mod _)
  have hand := Nat.and_two_pow_sub_one_eq_mod (bits16 (decodeSample low high)).toNat 4
  apply BitVec.eq_of_toNat_eq
  rw [BitVec.toNat_and]
  exact hand.trans hmod

theorem exec_keeps_consistent {i : Instr} {s t : State} (h : Consistent s) (he : exec i s = .next t) :
    Consistent t := by
  rw [consistent_iff t (rstDone_of_exec he)]
  obtain ⟨-, rfl⟩ | ⟨hr, hcase⟩ := exec_cases i s t he
  · exact .of_empty h.1 rfl rfl rfl rfl
  · have hinv := (consistent_iff s hr).mp h
    obtain ⟨-, rfl⟩ | ⟨-, rfl⟩ | ⟨-, rfl⟩ | ⟨-, -, rfl⟩ | ⟨-, hc, rfl⟩ | ⟨_, -, -, -, rfl⟩ | ⟨_, -, -, rfl⟩ |
      ⟨d, -, -, hc, rfl⟩ := hcase
    · exact hinv.of_fifo_eq rfl rfl rfl rfl rfl
    · exact hinv.of_fifo_eq rfl rfl rfl rfl rfl
    · exact hinv.of_fifo_eq rfl rfl rfl rfl rfl
    · exact hinv.of_fifo_eq rfl rfl rfl rfl rfl
    · exact (hinv.dropOldest hc).of_fifo_eq rfl rfl rfl rfl rfl
    · exact hinv.of_fifo_eq rfl rfl rfl rfl rfl
    · exact hinv.of_fifo_eq rfl rfl rfl rfl rfl
    · exact (hinv.push (hinv.count_le.lt_of_ne hc) _ (bits16_decodeSample_low _ _)).of_fifo_eq rfl rfl rfl rfl rfl

/-- Settles O41: what is presented is no part of the block, so it is enough that the operations keep the invariant. -/
theorem stepKeepsTheInvariant : Obligations.StepKeepsTheInvariant := by
  intro s t h hs
  obtain ⟨-, rfl⟩ | ⟨v, rest, -, rfl⟩ | ⟨c, e, rest, -, -, rfl⟩ | ⟨c, i, rest, -, -, he⟩ := step_cases s t hs
  · exact h.of_block_eq rfl
  · exact h.of_block_eq (State.sampleClock_block _ v)
  · exact h.of_block_eq rfl
  · have hrest : Consistent (s.withInputs rest) := h.of_block_eq rfl
    exact exec_keeps_consistent hrest he

/-- Settles O42: an empty FIFO, at `State.reset` and after `RST`. -/
theorem resetSatisfiesTheInvariant : Obligations.ResetSatisfiesTheInvariant := by
  refine ⟨(consistent_iff _ rfl).mpr (.of_empty (Nat.succ_pos _) rfl rfl rfl rfl), fun s t hdepth he => ?_⟩
  obtain rfl := Host.Outcome.next.inj (exec_rst s |>.symm.trans he)
  exact (consistent_iff _ rfl).mpr (.of_empty hdepth rfl rfl rfl rfl)

/-! ## The configuration -/

theorem exec_keeps_configuration {i : Instr} {s t : State} (h : exec i s = .next t) :
    t.depth = s.depth ∧ t.arb = s.arb := by
  obtain ⟨-, rfl⟩ | ⟨-, h⟩ := exec_cases i s t h
  · exact ⟨rfl, rfl⟩
  · obtain ⟨-, rfl⟩ | ⟨-, rfl⟩ | ⟨-, rfl⟩ | ⟨-, -, rfl⟩ | ⟨-, -, rfl⟩ | ⟨_, -, -, -, rfl⟩ | ⟨_, -, -, rfl⟩ |
      ⟨_, -, -, -, rfl⟩ := h <;> exact ⟨rfl, rfl⟩

/-- Settles O43, by what is presented. -/
theorem stepsKeepTheConfiguration : Obligations.StepsKeepTheConfiguration := by
  intro s t h
  obtain ⟨-, rfl⟩ | ⟨v, rest, -, rfl⟩ | ⟨c, e, rest, -, -, rfl⟩ | ⟨c, i, rest, -, -, he⟩ := step_cases s t h
  · exact ⟨rfl, rfl⟩
  · have hb := State.sampleClock_block (s.withInputs rest) v
    exact ⟨(congrArg State.depth hb :), (congrArg State.arb hb :)⟩
  · exact ⟨rfl, rfl⟩
  · have hconfig : t.depth = (s.withInputs rest).depth ∧ t.arb = (s.withInputs rest).arb := exec_keeps_configuration he
    exact hconfig

/-! ## What each agent's operations can do -/

/-- The producer's operations: `WNOP`, `ENDB`, and the three branches of `PUTB`. -/
theorem exec_producer_cases {i : Instr} {s t : State} (hi : i.agent = .producer) (h : exec i s = .next t) :
    s.rstDone = true ∧
      ((i = .wnop ∧ t = s.answer Reply.accepted) ∨
       (i = .endb ∧ t = s.clearPend.answer Reply.accepted) ∨
       (∃ d, i = .putb d ∧ s.pend = true ∧ s.count = s.depth ∧ t = s.answer Reply.held) ∨
       (∃ d, i = .putb d ∧ s.pend = false ∧ t = (s.keepByte d).answer Reply.accepted) ∨
       (∃ d, i = .putb d ∧ s.pend = true ∧ s.count ≠ s.depth ∧
         t = ((s.push (decodeSample s.loByte d)).clearPend).answer Reply.accepted)) := by
  cases i with
  | wnop =>
    obtain ⟨hr, rfl⟩ := (afterFirstReset_eq_next _ _ _).mp h
    exact ⟨hr, .inl ⟨rfl, rfl⟩⟩
  | endb =>
    obtain ⟨hr, rfl⟩ := (afterFirstReset_eq_next _ _ _).mp h
    exact ⟨hr, .inr (.inl ⟨rfl, rfl⟩)⟩
  | putb d =>
    obtain ⟨hr, rfl⟩ := (afterFirstReset_eq_next _ _ _).mp h
    refine ⟨hr, .inr (.inr ?_)⟩
    obtain ⟨hp, hc, ht⟩ | ⟨hp, ht⟩ | ⟨hp, hc, ht⟩ := s.takeByte_cases d
    · exact .inl ⟨d, rfl, hp, hc, ht⟩
    · exact .inr (.inl ⟨d, rfl, hp, ht⟩)
    · exact .inr (.inr ⟨d, rfl, hp, hc, ht⟩)
  | rnop => cases hi
  | pop => cases hi
  | rst => cases hi

/-- The consumer's operations: a sample is delivered, by a `POP` on a FIFO that holds one, or none is. -/
theorem exec_consumer_cases {i : Instr} {s t : State} (hi : i.agent = .consumer) (h : exec i s = .next t) :
    s.rstDone = true ∧
      (((i = .rnop ∨ s.count = 0) ∧ t = s.answerNoSample) ∨
       (i = .pop ∧ s.count ≠ 0 ∧ t = s.dropOldest.answer (Reply.sample s.oldest))) := by
  cases i with
  | rnop =>
    obtain ⟨hr, rfl⟩ := (afterFirstReset_eq_next _ _ _).mp h
    exact ⟨hr, .inl ⟨.inl rfl, rfl⟩⟩
  | pop =>
    obtain ⟨hr, rfl⟩ := (afterFirstReset_eq_next _ _ _).mp h
    obtain ⟨hc, ht⟩ | ⟨hc, ht⟩ := s.takeSample_cases
    · exact ⟨hr, .inl ⟨.inr hc, ht⟩⟩
    · exact ⟨hr, .inr ⟨rfl, hc, ht⟩⟩
  | wnop => cases hi
  | putb d => cases hi
  | endb => cases hi
  | rst => cases hi

/-- Settles O35, by the producer's five cases; only the push touches the storage, at `wp`. -/
theorem writePortFrame : Obligations.WritePortFrame := by
  intro i s t hi h he
  obtain ⟨-, ⟨rfl, rfl⟩ | ⟨rfl, rfl⟩ | ⟨d, rfl, hp, hc, rfl⟩ | ⟨d, rfl, hp, rfl⟩ | ⟨d, rfl, hp, hc, rfl⟩⟩ :=
    exec_producer_cases hi he
  · exact ⟨rfl, rfl, rfl, rfl, rfl, rfl, rfl, fun _ _ => rfl, fun _ => ⟨rfl, rfl, rfl⟩, fun _ => rfl, fun _ => rfl⟩
  · exact ⟨rfl, rfl, rfl, rfl, rfl, rfl, rfl, fun _ _ => rfl, fun _ => ⟨rfl, rfl, rfl⟩, fun _ => rfl, nofun⟩
  · exact ⟨rfl, rfl, rfl, rfl, rfl, rfl, rfl, fun _ _ => rfl, fun _ => ⟨rfl, rfl, rfl⟩, fun _ => rfl, nofun⟩
  · exact ⟨rfl, rfl, rfl, rfl, rfl, rfl, rfl, fun _ _ => rfl, fun _ => ⟨rfl, rfl, rfl⟩,
      fun hnot => absurd ⟨⟨d, rfl⟩, hp⟩ hnot, nofun⟩
  · refine ⟨rfl, rfl, rfl, rfl, rfl, rfl, rfl, fun j hj => ?_, fun hnot => absurd ⟨⟨d, rfl⟩, hp, hc⟩ hnot,
      fun _ => rfl, nofun⟩
    rw [State.entry_answer, State.entry_clearPend, s.entry_push h.2.1, if_neg hj]

/-- Settles O36, by the consumer's two cases. -/
theorem readPortFrame : Obligations.ReadPortFrame := by
  intro i s t hi he
  obtain ⟨-, ⟨-, rfl⟩ | ⟨rfl, hc, rfl⟩⟩ := exec_consumer_cases hi he
  · exact ⟨rfl, rfl, rfl, rfl, rfl, rfl, rfl, rfl, rfl, fun _ => rfl, fun _ => ⟨rfl, rfl⟩⟩
  · refine ⟨rfl, rfl, rfl, rfl, rfl, rfl, rfl, rfl, rfl, fun _ => rfl, ?_⟩
    rintro (hrnop | hempty)
    · cases hrnop
    · exact absurd hempty hc

/-- While there is room, `wp` is no index of the occupied window. -/
theorem State.windowIndex_ne_wp (s : State) (hwp : s.wp = s.windowIndex s.count) (hroom : s.count < s.depth) {k : Nat}
    (hk : k < s.count) : s.windowIndex k ≠ s.wp := fun h =>
  hk.ne (s.windowIndex_inj (hk.trans hroom) hroom (h.trans hwp))

/-- Settles O37: only a push writes an entry, and with room left it writes none of the window. -/
theorem queuedSamplesAreNotOverwritten : Obligations.QueuedSamplesAreNotOverwritten := by
  intro i s t hi h he k hk
  obtain ⟨hr, ⟨-, rfl⟩ | ⟨-, rfl⟩ | ⟨_, -, -, -, rfl⟩ | ⟨_, -, -, rfl⟩ | ⟨d, -, -, hc, rfl⟩⟩ :=
    exec_producer_cases hi he
  · exact ⟨rfl, rfl⟩
  · exact ⟨rfl, rfl⟩
  · exact ⟨rfl, rfl⟩
  · exact ⟨rfl, rfl⟩
  · have hinv := (consistent_iff s hr).mp h
    refine ⟨?_, rfl⟩
    rw [State.entry_answer, State.entry_clearPend, s.entry_push hinv.mem_wf,
      if_neg (s.windowIndex_ne_wp hinv.wp_eq (hinv.count_le.lt_of_ne hc) hk)]

/-- Settles O38: only a push raises `count`, with a first byte held, and only a delivery lowers it. -/
theorem agentsMoveTheCountTheirOwnWay : Obligations.AgentsMoveTheCountTheirOwnWay := by
  refine fun i s t he => ⟨fun hi => ?_, fun hi => ?_, fun hi => ?_⟩
  · obtain ⟨-, ⟨-, rfl⟩ | ⟨-, rfl⟩ | ⟨_, -, -, -, rfl⟩ | ⟨_, -, -, rfl⟩ | ⟨d, -, hp, -, rfl⟩⟩ :=
      exec_producer_cases hi he
    · exact .inl rfl
    · exact .inl rfl
    · exact .inl rfl
    · exact .inl rfl
    · exact .inr ⟨rfl, hp⟩
  · obtain ⟨-, ⟨-, rfl⟩ | ⟨-, hc, rfl⟩⟩ := exec_consumer_cases hi he
    · exact .inl rfl
    · exact .inr ⟨Nat.succ_pred_eq_of_ne_zero hc, _, rfl⟩
  · cases i with
    | rst =>
      obtain rfl := Host.Outcome.next.inj he
      rfl
    | _ => cases hi

/-- Settles O34: to fall, `wr_ready` needs a held byte and a full FIFO, and only a kept byte leaves both where they were
not. -/
theorem readyFallsOnlyAcrossAFirstByte : Obligations.ReadyFallsOnlyAcrossAFirstByte := by
  intro i s t h he hs ht
  obtain ⟨hp, hc⟩ := t.wrReady_eq_false.mp ht
  have hready : ¬ (s.pend = true ∧ s.count = s.depth) := fun hnot =>
    Bool.false_ne_true ((s.wrReady_eq_false.mpr hnot).symm.trans hs)
  obtain ⟨-, rfl⟩ | ⟨hr, hcase⟩ := exec_cases i s t he
  · exact absurd hp Bool.false_ne_true
  · obtain ⟨-, rfl⟩ | ⟨-, rfl⟩ | ⟨-, rfl⟩ | ⟨-, -, rfl⟩ | ⟨-, hne, rfl⟩ | ⟨_, -, -, -, rfl⟩ | ⟨d, rfl, hfirst, rfl⟩ |
      ⟨_, -, -, -, rfl⟩ := hcase
    · exact absurd ⟨hp, hc⟩ hready
    · exact absurd hp Bool.false_ne_true
    · exact absurd ⟨hp, hc⟩ hready
    · exact absurd ⟨hp, hc⟩ hready
    · have hle := ((consistent_iff s hr).mp h).count_le
      rw [State.answer_count, State.answer_depth, State.dropOldest_count, State.dropOldest_depth] at hc
      omega
    · exact absurd ⟨hp, hc⟩ hready
    · exact ⟨hfirst, hc, d, rfl⟩
    · exact absurd hp Bool.false_ne_true

end Sys2Proof.Machine
end

section
/-! Proofs about runs: the queue of 41_fifo.md R59 over a schedule, stream equivalence (40_codec.md R52), `LINE` with room
and `FILL` (30_encoding.md R44), and schedules as they are presented (00_scope.md R9). -/

namespace Sys2Proof.Machine

/-! ## Schedules one operation at a time -/

theorem runOps_cons {i : Instr} {s t : State} (ops : List Instr) (h : exec i s = .next t) :
    runOps (i :: ops) s = runOps ops t := by
  simp [runOps, h]

theorem along_cons {α : Type} (f : Instr → State → State → List α) {i : Instr} {s t : State} (ops : List Instr)
    (h : exec i s = .next t) : along f (i :: ops) s = f i s t ++ along f ops t := by
  simp [along, h]

/-- A run with a next state goes through a next state of its first operation. -/
theorem exists_of_runOps_cons {i : Instr} {ops : List Instr} {s u : State} (h : runOps (i :: ops) s = .next u) :
    ∃ t, exec i s = .next t ∧ runOps ops t = .next u := by
  cases he : exec i s with
  | next t => exact ⟨t, rfl, runOps_cons ops he ▸ h⟩
  | fault f => exact absurd he (exec_ne_fault i s f)
  | refused r => simp [runOps, he] at h

theorem runOps_append {ops : List Instr} {s t : State} (more : List Instr) (h : runOps ops s = .next t) :
    runOps (ops ++ more) s = runOps more t := by
  induction ops generalizing s with
  | nil => cases h; rfl
  | cons i ops ih =>
    obtain ⟨u, hu, hrest⟩ := exists_of_runOps_cons h
    rw [List.cons_append, runOps_cons _ hu, ih hrest]

theorem along_append {α : Type} (f : Instr → State → State → List α) {ops : List Instr} {s t : State}
    (more : List Instr) (h : runOps ops s = .next t) : along f (ops ++ more) s = along f ops s ++ along f more t := by
  induction ops generalizing s with
  | nil => cases h; rfl
  | cons i ops ih =>
    obtain ⟨u, hu, hrest⟩ := exists_of_runOps_cons h
    rw [List.cons_append, along_cons f _ hu, along_cons f _ hu, ih hrest, List.append_assoc]

theorem exists_runOps (ops : List Instr) (s : State) (hr : s.rstDone = true) : ∃ t, runOps ops s = .next t := by
  induction ops generalizing s with
  | nil => exact ⟨s, rfl⟩
  | cons i ops ih =>
    obtain ⟨t, ht⟩ := exists_exec i s hr
    rw [runOps_cons ops ht]
    exact ih t (rstDone_of_exec ht)

/-- What every operation of a schedule keeps, the schedule keeps. -/
theorem runOps_keeps {P : State → Prop} {ops : List Instr} {s t : State} (h : runOps ops s = .next t) (hs : P s)
    (hstep : ∀ i ∈ ops, ∀ u v, P u → exec i u = .next v → P v) : P t := by
  induction ops generalizing s with
  | nil => cases h; exact hs
  | cons i ops ih =>
    obtain ⟨u, hu, hrest⟩ := exists_of_runOps_cons h
    exact ih hrest (hstep i List.mem_cons_self s u hs hu) fun j hj => hstep j (List.mem_cons_of_mem i hj)

theorem runOps_keeps_rstDone {ops : List Instr} {s t : State} (hrun : runOps ops s = .next t)
    (hr : s.rstDone = true) : t.rstDone = true :=
  runOps_keeps hrun hr fun _ _ _ _ _ he => rstDone_of_exec he

/-! ## The contents over one operation -/

theorem contents_of_push {s : State} (h : s.FifoInvariant) (d : Byte) (hroom : s.count < s.depth) :
    (s.push (decodeSample s.loByte d)).contents = s.contents ++ [decodeSample s.loByte d] :=
  s.contents_push _ h.mem_wf h.wp_eq hroom (int16_bits16_decodeSample _ _)

/-- What an operation but `RST` does to the contents and delivers: nothing, or the oldest sample leaves, or the sample of
a completed pair comes in. -/
theorem exec_contents_cases {i : Instr} {s t : State} (h : Consistent s) (hi : i ≠ .rst) (he : exec i s = .next t) :
    (t.contents = s.contents ∧ t.reply.delivered = []) ∨
    (s.contents = s.oldest :: t.contents ∧ t.reply.delivered = [s.entry s.rp]) ∨
    (∃ x, t.contents = s.contents ++ [x] ∧ t.reply.delivered = []) := by
  obtain ⟨rfl, -⟩ | ⟨hr, hcase⟩ := exec_cases i s t he
  · exact absurd rfl hi
  have hinv := (consistent_iff s hr).mp h
  obtain ⟨-, rfl⟩ | ⟨-, rfl⟩ | ⟨-, rfl⟩ | ⟨-, -, rfl⟩ | ⟨-, hc, rfl⟩ | ⟨_, -, -, -, rfl⟩ | ⟨_, -, -, rfl⟩ |
    ⟨d, -, -, hc, rfl⟩ := hcase
  · exact .inl ⟨rfl, rfl⟩
  · exact .inl ⟨rfl, rfl⟩
  · exact .inl ⟨rfl, rfl⟩
  · exact .inl ⟨rfl, rfl⟩
  · refine .inr (.inl ⟨s.contents_eq_oldest_cons hinv.rp_lt (Nat.pos_of_ne_zero hc), ?_⟩)
    rw [Reply.sample_oldest]
    rfl
  · exact .inl ⟨rfl, rfl⟩
  · exact .inl ⟨rfl, rfl⟩
  · exact .inr (.inr ⟨_, contents_of_push hinv d (hinv.count_le.lt_of_ne hc), rfl⟩)

theorem samplesPushed_of_append {i : Instr} {s t : State} {xs : List Int} (h : t.contents = s.contents ++ xs) :
    samplesPushed i s t = xs := by
  rw [samplesPushed, h, List.drop_left]

theorem samplesPushed_of_same {i : Instr} {s t : State} (h : t.contents = s.contents) : samplesPushed i s t = [] :=
  samplesPushed_of_append (by rw [h, List.append_nil])

theorem samplesPushed_of_cons {i : Instr} {s t : State} {x : Int} (h : s.contents = x :: t.contents) :
    samplesPushed i s t = [] := by
  rw [samplesPushed, h]
  exact List.drop_of_length_le (Nat.le_succ _)

/-- R59 for one operation: what it delivers and what is queued after it are what was queued and what it pushes. -/
theorem popped_append_contents {i : Instr} {s t : State} (h : Consistent s) (hi : i ≠ .rst)
    (he : exec i s = .next t) : (samplesPopped i s t).map int16 ++ t.contents = s.contents ++ samplesPushed i s t := by
  obtain ⟨hq, hd⟩ | ⟨hq, hd⟩ | ⟨x, hq, hd⟩ := exec_contents_cases h hi he
  · rw [samplesPopped, samplesPushed_of_same hq, hd, hq, List.append_nil]
    rfl
  · rw [samplesPopped, samplesPushed_of_cons hq, hd, hq, List.append_nil]
    rfl
  · rw [samplesPopped, samplesPushed_of_append hq, hd, hq]
    rfl

/-- Settles O45, by induction on the schedule with `popped_append_contents` for its first operation. -/
theorem popsReturnThePushedSamplesInOrder : Obligations.PopsReturnThePushedSamplesInOrder := by
  intro ops
  induction ops with
  | nil =>
    intro s t _ _ _ hrun
    cases hrun
    exact (List.append_nil _).symm
  | cons i ops ih =>
    intro s t h hr hrst hrun
    obtain ⟨u, hu, hrest⟩ := exists_of_runOps_cons hrun
    obtain ⟨hi, hops⟩ : Instr.rst ≠ i ∧ Instr.rst ∉ ops := by simpa using hrst
    have hfirst := popped_append_contents h hi.symm hu
    have hlater := ih u t (exec_keeps_consistent h hu) (rstDone_of_exec hu) hops hrest
    calc (along samplesPopped (i :: ops) s).map int16 ++ t.contents
        = (samplesPopped i s u).map int16 ++ ((along samplesPopped ops u).map int16 ++ t.contents) := by
          rw [along_cons _ _ hu, List.map_append, List.append_assoc]
      _ = s.contents ++ along samplesPushed (i :: ops) s := by
          rw [hlater, ← List.append_assoc, hfirst, along_cons _ _ hu, List.append_assoc]

/-! ## The stream of bytes -/

/-- The first byte of a pair that is held, if there is one: the bytes taken and not yet decoded. -/
def State.heldByte (s : State) : List Byte := if s.pend then [s.loByte] else []

theorem State.heldByte_of_pend (s : State) (h : s.pend = true) : s.heldByte = [s.loByte] := if_pos h

theorem State.heldByte_of_not_pend (s : State) (h : s.pend = false) : s.heldByte = [] := by
  simp [State.heldByte, h]

/-- One byte is no pair. -/
theorem decodeBuffer_heldByte (s : State) : decodeBuffer s.heldByte = [] := by
  unfold State.heldByte
  split <;> rfl

/-- A step that pushes nothing takes its byte, if it has one, behind the held one. -/
theorem decodeBuffer_of_nothing_pushed {i : Instr} {s t : State} (hpushed : samplesPushed i s t = [])
    (hheld : t.heldByte = s.heldByte ++ bytesTaken i s t) (more : List Byte) :
    samplesPushed i s t ++ decodeBuffer (t.heldByte ++ more) =
      decodeBuffer (s.heldByte ++ (bytesTaken i s t ++ more)) := by
  rw [hpushed, hheld, List.append_assoc, List.nil_append]

/-- R52 for one operation: with the held byte put before the bytes still to come, what an operation pushes and what the
rest will decode to are what the whole decodes to. -/
theorem pushed_append_decodeBuffer {i : Instr} {s t : State} (h : Consistent s) (hrst : i ≠ .rst) (hendb : i ≠ .endb)
    (he : exec i s = .next t) (more : List Byte) :
    samplesPushed i s t ++ decodeBuffer (t.heldByte ++ more) =
      decodeBuffer (s.heldByte ++ (bytesTaken i s t ++ more)) := by
  obtain ⟨rfl, -⟩ | ⟨hr, hcase⟩ := exec_cases i s t he
  · exact absurd rfl hrst
  have hinv := (consistent_iff s hr).mp h
  obtain ⟨rfl, rfl⟩ | ⟨rfl, -⟩ | ⟨rfl, rfl⟩ | ⟨rfl, -, rfl⟩ | ⟨rfl, hc, rfl⟩ | ⟨d, rfl, -, -, rfl⟩ | ⟨d, rfl, hp, rfl⟩ |
    ⟨d, rfl, hp, hc, rfl⟩ := hcase
  · refine decodeBuffer_of_nothing_pushed ?_ ?_ more
    exacts [samplesPushed_of_same rfl, (List.append_nil _).symm]
  · exact absurd rfl hendb
  · refine decodeBuffer_of_nothing_pushed ?_ ?_ more
    exacts [samplesPushed_of_same rfl, (List.append_nil _).symm]
  · refine decodeBuffer_of_nothing_pushed ?_ ?_ more
    exacts [samplesPushed_of_same rfl, (List.append_nil _).symm]
  · have hq := s.contents_eq_oldest_cons hinv.rp_lt (Nat.pos_of_ne_zero hc)
    refine decodeBuffer_of_nothing_pushed ?_ ?_ more
    exacts [samplesPushed_of_cons hq, (List.append_nil _).symm]
  · refine decodeBuffer_of_nothing_pushed ?_ ?_ more
    exacts [samplesPushed_of_same rfl, (List.append_nil _).symm]
  · have hheld := s.heldByte_of_not_pend hp
    refine decodeBuffer_of_nothing_pushed ?_ ?_ more
    exacts [samplesPushed_of_same rfl, by rw [hheld]; rfl]
  · have hq := contents_of_push hinv d (hinv.count_le.lt_of_ne hc)
    rw [samplesPushed_of_append (t := (s.push _).clearPend.answer _) hq, s.heldByte_of_pend hp]
    rfl

/-- R52 over a schedule without `ENDB` and `RST`, from any held byte to any. -/
theorem along_pushed_append_decodeBuffer {ops : List Instr} {s t : State} (h : Consistent s)
    (hops : ∀ i ∈ ops, i ≠ .endb ∧ i ≠ .rst) (hrun : runOps ops s = .next t) (more : List Byte) :
    along samplesPushed ops s ++ decodeBuffer (t.heldByte ++ more) =
      decodeBuffer (s.heldByte ++ (along bytesTaken ops s ++ more)) := by
  induction ops generalizing s with
  | nil => cases hrun; rfl
  | cons i ops ih =>
    obtain ⟨u, hu, hrest⟩ := exists_of_runOps_cons hrun
    obtain ⟨hendb, hrst⟩ := hops i List.mem_cons_self
    have hlater := ih (exec_keeps_consistent h hu) (fun j hj => hops j (List.mem_cons_of_mem i hj)) hrest
    rw [along_cons _ _ hu, along_cons _ _ hu, List.append_assoc, hlater, pushed_append_decodeBuffer h hrst hendb hu,
      List.append_assoc]

/-- Settles O46: at the end of the schedule at most one byte is held, and `ENDB` forgets it and pushes nothing. -/
theorem streamDecodesAsOneBuffer : Obligations.StreamDecodesAsOneBuffer := by
  intro ops s h hr hp hops
  obtain ⟨t, ht⟩ := exists_runOps ops s hr
  have hendb := exec_endb t (runOps_keeps_rstDone ht hr)
  refine ⟨_, (runOps_append _ ht).trans (runOps_cons _ hendb), rfl, ?_⟩
  have hpushed : along samplesPushed [.endb] t = [] := by
    have hlast : samplesPushed .endb t (t.clearPend.answer Reply.accepted) = [] := samplesPushed_of_same rfl
    rw [along_cons _ _ hendb, hlast]
    rfl
  have hstream := along_pushed_append_decodeBuffer h hops ht []
  rw [List.append_nil, decodeBuffer_heldByte, List.append_nil, s.heldByte_of_not_pend hp, List.append_nil,
    List.nil_append] at hstream
  rw [along_append _ _ ht, hpushed, List.append_nil, hstream]

/-! ## `LINE` -/

theorem ne_of_mem_putsOps {bytes : List Byte} {i : Instr} (h : i ∈ putsOps bytes) : i ≠ .endb ∧ i ≠ .rst := by
  obtain ⟨d, -, rfl⟩ := List.mem_map.mp h
  exact ⟨nofun, nofun⟩

/-- With room for the pairs that are still to be completed no byte of a `PUTS` is held. -/
theorem along_bytesTaken_putsOps (bytes : List Byte) (s : State) (h : Consistent s) (hr : s.rstDone = true)
    (hroom : s.count + (s.heldByte.length + bytes.length) / 2 ≤ s.depth) :
    along bytesTaken (putsOps bytes) s = bytes := by
  induction bytes generalizing s with
  | nil => rfl
  | cons d bytes ih =>
    have hexec := exec_putb d s hr
    have hlater := ih (s.takeByte d) (exec_keeps_consistent h hexec) (rstDone_of_exec hexec)
    rw [List.length_cons] at hroom
    refine (along_cons bytesTaken (putsOps bytes) hexec).trans ?_
    obtain ⟨hp, hc, ht⟩ | ⟨hp, ht⟩ | ⟨hp, hc, ht⟩ := s.takeByte_cases d
    · rw [s.heldByte_of_pend hp, List.length_singleton] at hroom
      omega
    · rw [s.heldByte_of_not_pend hp, List.length_nil] at hroom
      rw [ht] at hlater ⊢
      have hheld : ((s.keepByte d).answer Reply.accepted).heldByte.length = 1 := rfl
      refine congrArg (d :: ·) (hlater ?_)
      rw [hheld, State.answer_count, State.answer_depth, State.keepByte_count, State.keepByte_depth]
      omega
    · rw [s.heldByte_of_pend hp, List.length_singleton] at hroom
      rw [ht] at hlater ⊢
      refine congrArg (d :: ·) (hlater ?_)
      rw [State.heldByte_of_not_pend _ rfl, State.answer_count, State.answer_depth, State.clearPend_count,
        State.clearPend_depth, State.push_count, State.push_depth, List.length_nil]
      omega

/-- A response is the consumer's: no operation of the producer delivers a sample. -/
theorem along_samplesPopped_of_producer (ops : List Instr) (s : State) (hops : ∀ i ∈ ops, i.agent = .producer) :
    along samplesPopped ops s = [] := by
  induction ops generalizing s with
  | nil => rfl
  | cons i ops ih =>
    cases he : exec i s with
    | fault f => exact absurd he (exec_ne_fault i s f)
    | refused r => simp [along, he]
    | next t =>
      have hnone : samplesPopped i s t = [] := by
        obtain ⟨-, ⟨-, rfl⟩ | ⟨-, rfl⟩ | ⟨_, -, -, -, rfl⟩ | ⟨_, -, -, rfl⟩ | ⟨_, -, -, -, rfl⟩⟩ :=
          exec_producer_cases (hops i List.mem_cons_self) he <;> rfl
      rw [along_cons _ _ he, hnone, ih t fun j hj => hops j (List.mem_cons_of_mem i hj)]
      rfl

/-- The operations of a `LINE` are `PUTB`s and the `ENDB`. -/
theorem mem_lineOps {bytes : List Byte} {i : Instr} (h : i ∈ lineOps bytes) : (∃ d, i = .putb d) ∨ i = .endb := by
  obtain hputs | hendb := List.mem_append.mp h
  · obtain ⟨d, -, rfl⟩ := List.mem_map.mp hputs
    exact .inl ⟨d, rfl⟩
  · exact .inr (List.mem_singleton.mp hendb)

theorem agent_of_mem_lineOps {bytes : List Byte} {i : Instr} (h : i ∈ lineOps bytes) : i.agent = .producer := by
  obtain ⟨d, rfl⟩ | rfl := mem_lineOps h <;> rfl

theorem rst_notMem_lineOps (bytes : List Byte) : .rst ∉ lineOps bytes := fun h =>
  absurd (agent_of_mem_lineOps h) (by decide)

/-- Settles O47: every byte is taken, stream equivalence says what is pushed, and nothing is delivered, so all of it is
queued. -/
theorem lineAppendsItsDecodedBuffer : Obligations.LineAppendsItsDecodedBuffer := by
  intro bytes s h hr hp hroom
  have htaken : along bytesTaken (putsOps bytes) s = bytes := by
    apply along_bytesTaken_putsOps bytes s h hr
    rw [s.heldByte_of_not_pend hp, List.length_nil, Nat.zero_add]
    exact hroom
  obtain ⟨t, ht, hpend, hpushed⟩ := streamDecodesAsOneBuffer _ s h hr hp fun _ => ne_of_mem_putsOps
  have hqueue := popsReturnThePushedSamplesInOrder (lineOps bytes) s t h hr (rst_notMem_lineOps bytes) ht
  rw [along_samplesPopped_of_producer _ _ fun _ => agent_of_mem_lineOps, lineOps, hpushed, htaken] at hqueue
  obtain ⟨u, hu⟩ := exists_runOps (putsOps bytes) s hr
  have hendb : along bytesTaken [.endb] u = [] := along_cons _ _ (exec_endb u (runOps_keeps_rstDone hu hr))
  refine ⟨t, ht, hpend, hqueue, ?_⟩
  rw [lineOps, along_append _ _ hu, htaken, hendb, List.append_nil]

/-! ## `FILL` -/

/-- Settles O48, by induction on `n`: a `POP` finds nothing, and `FILL` ends, or it delivers the first of the contents
and `FILL` goes on with the rest. -/
theorem fillDeliversTheOldestSamples : Obligations.FillDeliversTheOldestSamples := by
  intro n
  induction n with
  | zero => exact fun s _ _ => ⟨s, [], rfl, rfl, rfl⟩
  | succ n ih =>
    intro s h hr
    have hinv := (consistent_iff s hr).mp h
    have hpop := exec_pop s hr
    obtain ⟨hc, ht⟩ | ⟨hc, ht⟩ := s.takeSample_cases
    · have hnone : s.contents = [] := List.length_eq_zero_iff.mp (s.contents_length.trans hc)
      rw [ht] at hpop
      refine ⟨s.answerNoSample, [], by simp [fillSlots, hpop, Reply.noSample, Reply.delivered], ?_, ?_⟩
      · rw [hnone]
        rfl
      · show s.contents = s.contents.drop (n + 1)
        rw [hnone]
        rfl
    · rw [ht, Reply.sample_oldest] at hpop
      obtain ⟨t, xs, hfill, htake, hdrop⟩ := ih _ (exec_keeps_consistent h hpop) (rstDone_of_exec hpop)
      have hq := s.contents_eq_oldest_cons hinv.rp_lt (Nat.pos_of_ne_zero hc)
      refine ⟨t, s.entry s.rp :: xs, by simp [fillSlots, hpop, Reply.delivered, hfill], ?_, ?_⟩
      · rw [hq, List.map_cons, htake]
        rfl
      · rw [hq, hdrop]
        rfl

/-! ## Presented schedules -/

theorem State.takeByte_withInputs (s : State) (l : List Input) (d : Byte) :
    (s.withInputs l).takeByte d = (s.takeByte d).withInputs l := by
  obtain ⟨hp, hc, ht⟩ | ⟨hp, ht⟩ | ⟨hp, hc, ht⟩ := s.takeByte_cases d
  · rw [ht, (s.withInputs l).takeByte_of_held d hp hc]
    rfl
  · rw [ht, (s.withInputs l).takeByte_of_first d hp]
    rfl
  · rw [ht, (s.withInputs l).takeByte_of_room d hp hc]
    rfl

theorem State.takeSample_withInputs (s : State) (l : List Input) :
    (s.withInputs l).takeSample = s.takeSample.withInputs l := by
  obtain ⟨hc, ht⟩ | ⟨hc, ht⟩ := s.takeSample_cases
  · rw [ht, (s.withInputs l).takeSample_of_empty hc]
    rfl
  · rw [ht, (s.withInputs l).takeSample_of_nonempty hc]
    rfl

/-- An operation looks at nothing that is presented after it, and leaves it presented. -/
theorem exec_withInputs {i : Instr} {s t : State} (l : List Input) (h : exec i s = .next t) :
    exec i (s.withInputs l) = .next (t.withInputs l) := by
  cases i with
  | wnop =>
    obtain ⟨hr, rfl⟩ := (afterFirstReset_eq_next _ _ _).mp h
    exact exec_wnop _ hr
  | endb =>
    obtain ⟨hr, rfl⟩ := (afterFirstReset_eq_next _ _ _).mp h
    exact exec_endb _ hr
  | rnop =>
    obtain ⟨hr, rfl⟩ := (afterFirstReset_eq_next _ _ _).mp h
    exact exec_rnop _ hr
  | putb d =>
    obtain ⟨hr, rfl⟩ := (afterFirstReset_eq_next _ _ _).mp h
    exact (exec_putb d (s.withInputs l) hr).trans (congrArg Host.Outcome.next (s.takeByte_withInputs l d))
  | pop =>
    obtain ⟨hr, rfl⟩ := (afterFirstReset_eq_next _ _ _).mp h
    exact (exec_pop (s.withInputs l) hr).trans (congrArg Host.Outcome.next (s.takeSample_withInputs l))
  | rst =>
    obtain rfl := Host.Outcome.next.inj h
    rfl

theorem core_run_of_next {s t : State} (n : Nat) (h : step s = .next t) :
    Sys2Proof.core.run (n + 1) s = Sys2Proof.core.run n t := by
  have hstep : Sys2Proof.core.step s = .next t := h
  simp [Host.Core.run, hstep]

theorem core_run_of_refused {s : State} {r : Refusal} (n : Nat) (h : step s = .refused r) :
    Sys2Proof.core.run (n + 1) s = .refused r := by
  have hstep : Sys2Proof.core.step s = .refused r := h
  simp [Host.Core.run, hstep]

/-- Settles O44, by induction on the operations: each canonical word is decoded back, and what is presented after it
changes nothing of its operation. -/
theorem presentedScheduleRunsItsOperations : Obligations.PresentedScheduleRunsItsOperations := by
  intro ops rest
  induction ops with
  | nil =>
    rintro s rfl
    rfl
  | cons i ops ih =>
    intro s hs
    have hstep : step s = exec i (s.withInputs (presented ops ++ rest)) :=
      step_of_command s (encode i) _ i hs (decode_encode i)
    show Sys2Proof.core.run (ops.length + 1) s = runOps (i :: ops) (s.withInputs rest)
    cases he : exec i (s.withInputs rest) with
    | fault f => exact absurd he (exec_ne_fault _ _ f)
    | refused r =>
      have hrefused : exec i (s.withInputs (presented ops ++ rest)) = .refused r :=
        (exec_eq_refused _ _ r).mpr ((exec_eq_refused i (s.withInputs rest) r).mp he)
      have hrun : runOps (i :: ops) (s.withInputs rest) = .refused r := by simp [runOps, he]
      exact (core_run_of_refused _ (hstep.trans hrefused)).trans hrun.symm
    | next t =>
      have hlonger : exec i (s.withInputs (presented ops ++ rest)) = .next (t.withInputs (presented ops ++ rest)) :=
        exec_withInputs (s := s.withInputs rest) _ he
      have hsame : t.withInputs rest = t :=
        Host.Outcome.next.inj ((exec_withInputs (s := s.withInputs rest) rest he).symm.trans he)
      have hlater := ih (t.withInputs (presented ops ++ rest)) rfl
      rw [core_run_of_next _ (hstep.trans hlonger), runOps_cons ops he]
      exact hlater.trans (congrArg (runOps ops) hsame)

/-! ## A `POP` after the producer -/

/-- The next `POP` delivers the entry `x`. -/
def State.Serves (s : State) (x : Sample) : Prop :=
  Consistent s ∧ s.rstDone = true ∧ s.count ≠ 0 ∧ s.entry s.rp = x

/-- R78 for one operation: the producer removes nothing and overwrites nothing that is queued. -/
theorem State.Serves.exec_producer {i : Instr} {s t : State} {x : Sample} (hx : s.Serves x) (hi : i.agent = .producer)
    (he : exec i s = .next t) : t.Serves x := by
  obtain ⟨h, hr, hc, hentry⟩ := hx
  obtain ⟨hrp, -⟩ := writePortFrame i s t hi h he
  obtain ⟨hkept, -⟩ := queuedSamplesAreNotOverwritten i s t hi h he 0 (Nat.pos_of_ne_zero hc)
  obtain ⟨hcount, -⟩ := agentsMoveTheCountTheirOwnWay i s t he
  rw [s.windowIndex_zero ((consistent_iff s hr).mp h).rp_lt] at hkept
  refine ⟨exec_keeps_consistent h he, rstDone_of_exec he, ?_, by rw [hrp, hkept, hentry]⟩
  obtain hsame | ⟨hmore, -⟩ := hcount hi <;> omega

theorem State.Serves.exec_pop {s : State} {x : Sample} (hx : s.Serves x) :
    ∃ t, exec .pop s = .next t ∧ t.reply.read = some ⟨true, x⟩ := by
  obtain ⟨-, hr, hc, rfl⟩ := hx
  refine ⟨_, Machine.exec_pop s hr, ?_⟩
  rw [s.takeSample_of_nonempty hc, Reply.sample_oldest]
  rfl

/-- Settles O39: every operation of the schedule keeps the entry that the `POP` will deliver. -/
theorem nonemptyFifoServesTheNextPop : Obligations.NonemptyFifoServesTheNextPop := by
  intro ops s h hr hempty hops
  obtain ⟨t, ht⟩ := exists_runOps ops s hr
  have hc : s.count ≠ 0 := fun hc => Bool.false_ne_true (hempty.symm.trans (s.empty_eq_true.mpr hc))
  have hserves : t.Serves (s.entry s.rp) := runOps_keeps (P := fun u => u.Serves (s.entry s.rp)) ht ⟨h, hr, hc, rfl⟩
    fun i hi _ _ hu he => hu.exec_producer (hops i hi) he
  obtain ⟨u, hu, hread⟩ := hserves.exec_pop
  exact ⟨t, u, ht, hu, hread⟩

end Sys2Proof.Machine
end

section
/-! Proofs about the container of a command word (30_encoding.md R40, log 10) and about the assembler reading back what
is printed (R43). -/

namespace Sys2Proof

/-! ## The bytes of a command -/

/-- How many bytes carry a command of a port (log 10). -/
def Port.byteCount (p : Port) : Nat := if p = .write then 2 else 1

theorem length_bytes (c : Command) : c.bytes.length = c.port.byteCount := by
  cases c <;> rfl

/-- The bytes of a word carry all its bits. -/
theorem commandOfBytes_bytes (c : Command) : commandOfBytes c.port c.bytes = .ok c := by
  cases c with
  | write w =>
    have hw : ((w.extractLsb' 8 2).setWidth 8 ++ w.extractLsb' 0 8).extractLsb' 0 10 = w := by
      apply BitVec.eq_of_getLsbD_eq
      intro i hi
      simp only [BitVec.getLsbD_extractLsb', BitVec.getLsbD_append, BitVec.getLsbD_setWidth, Nat.zero_add]
      by_cases h : i < 8
      · simp only [h, hi, decide_true, Bool.true_and, if_true]
      · have hplace : 8 + (i - 8) = i := by omega
        have hhigh : i - 8 < 2 := by omega
        simp only [h, hi, hplace, hhigh, show i - 8 < 8 by omega, decide_true, decide_false, Bool.true_and, if_false]
    exact congrArg (fun w => Except.ok (Command.write w)) hw
  | read w =>
    obtain rfl | rfl := w.eq_zero_or_eq_one <;> rfl
  | reset w =>
    obtain rfl | rfl := w.eq_zero_or_eq_one <;> rfl

/-- Bytes are a command of the port exactly when there are as many as the port's command takes. -/
theorem commandOfBytes_cases (p : Port) (bytes : List Byte) :
    (bytes.length = p.byteCount ∧ ∃ c, commandOfBytes p bytes = .ok c ∧ c.port = p) ∨
    (bytes.length ≠ p.byteCount ∧ commandOfBytes p bytes = .error .wrongLength) := by
  match p, bytes with
  | .write, [b0, b1] => exact .inl ⟨rfl, _, rfl, rfl⟩
  | .read, [b0] => exact .inl ⟨rfl, _, rfl, rfl⟩
  | .reset, [b0] => exact .inl ⟨rfl, _, rfl, rfl⟩
  | .write, [] => exact .inr ⟨nofun, rfl⟩
  | .write, [_] => exact .inr ⟨nofun, rfl⟩
  | .write, _ :: _ :: _ :: _ => exact .inr ⟨nofun, rfl⟩
  | .read, [] => exact .inr ⟨nofun, rfl⟩
  | .read, _ :: _ :: _ => exact .inr ⟨nofun, rfl⟩
  | .reset, [] => exact .inr ⟨nofun, rfl⟩
  | .reset, _ :: _ :: _ => exact .inr ⟨nofun, rfl⟩

theorem decodeBytes_of_ok {p : Port} {bytes : List Byte} {c : Command} (h : commandOfBytes p bytes = .ok c) :
    decodeBytes p bytes = decode c := by
  simp [decodeBytes, h]

theorem decodeBytes_of_error {p : Port} {bytes : List Byte} {e : DecodeError} (h : commandOfBytes p bytes = .error e) :
    decodeBytes p bytes = .error e := by
  simp [decodeBytes, h]

/-- A word decodes to an operation of the agent that reaches its port (60_exceptions.md R70). -/
theorem agent_port_of_decode {c : Command} {i : Instr} (h : decode c = .ok i) : i.agent.port = c.port := by
  obtain ⟨hsel, -⟩ := (decode_eq_ok_iff c i).mp h
  obtain ⟨hport, -⟩ := (OpcodeRow.selects_iff _ _).mp hsel
  rw [← hport]
  cases i <;> rfl

theorem port_encode (i : Instr) : (encode i).port = i.agent.port := (agent_port_of_decode (decode_encode i)).symm

/-- Only the format X word 0 decodes to nothing. -/
theorem decode_eq_error_iff (c : Command) : (∃ e, decode c = .error e) ↔ c = .reset 0#1 := by
  constructor
  · rintro ⟨e, he⟩
    by_contra hc
    obtain ⟨i, hi⟩ := exists_decode_eq_ok c hc
    cases he.symm.trans hi
  · rintro rfl
    exact ⟨_, decode_reset_zero⟩

/-- Of the byte that carries a word of one bit only that bit counts. -/
theorem lowBit_eq_zero_iff (b : Byte) : b.extractLsb' 0 1 = 0#1 ↔ b.getLsbD 0 = false := by
  constructor
  · intro h
    have hbit := congrArg (fun w => w.getLsbD 0) h
    simpa using hbit
  · intro h
    apply BitVec.eq_of_getLsbD_eq
    intro i hi
    obtain rfl : i = 0 := by omega
    simpa using h

/-- The bytes that carry the format X word 0. -/
theorem commandOfBytes_eq_reset_zero_iff (p : Port) (bytes : List Byte) :
    commandOfBytes p bytes = .ok (.reset 0#1) ↔ p = .reset ∧ ∃ b : Byte, bytes = [b] ∧ b.getLsbD 0 = false := by
  constructor
  · intro h
    obtain ⟨hlength, c, hc, rfl⟩ | ⟨-, hc⟩ := commandOfBytes_cases p bytes
    · obtain rfl := Except.ok.inj (hc.symm.trans h)
      obtain ⟨b, rfl⟩ := List.length_eq_one_iff.mp hlength
      exact ⟨rfl, b, rfl, (lowBit_eq_zero_iff b).mp (Command.reset.inj (Except.ok.inj h))⟩
    · cases hc.symm.trans h
  · rintro ⟨rfl, b, rfl, hb⟩
    exact congrArg (fun w => Except.ok (Command.reset w)) ((lowBit_eq_zero_iff b).mpr hb)

end Sys2Proof

namespace Sys2Proof.Machine

/-- Settles O1: bytes stand for the word they carry, so the clauses are those of `decode`. -/
theorem decodingInvertsEncoding : Obligations.DecodingInvertsEncoding := by
  refine ⟨fun i _ => ⟨decode_encode i, ?_⟩, fun p bytes i h => ?_, fun p bytes => ?_⟩
  · rw [← port_encode, decodeBytes_of_ok (commandOfBytes_bytes _), decode_encode]
  · obtain ⟨hlength, c, hc, rfl⟩ | ⟨-, hc⟩ := commandOfBytes_cases p bytes
    · rw [decodeBytes_of_ok hc] at h
      have hport := agent_port_of_decode h
      exact ⟨hport, by rw [length_bytes, port_encode, hport, hlength]⟩
    · cases h.symm.trans (decodeBytes_of_error hc)
  · obtain ⟨hlength, c, hc, -⟩ | ⟨hlength, hc⟩ := commandOfBytes_cases p bytes
    · rw [decodeBytes_of_ok hc, decode_eq_error_iff, ← commandOfBytes_eq_reset_zero_iff, hc, Except.ok.injEq]
      exact (or_iff_right (not_not_intro hlength)).symm
    · exact iff_of_true ⟨_, decodeBytes_of_error hc⟩ (.inl hlength)

/-! ## Printed lines

The only operand is a byte, printed as two digits; the rest of a line is fixed text. -/

theorem hexDigit_hexChar (n : Nat) (hn : n < 16) : hexDigit (hexChar n) = some n := by
  revert n
  decide

/-- A digit goes on with the word it stands in. -/
theorem lexChar_hexChar (n : Nat) (hn : n < 16) (acc : List Char) :
    lexChar (.word acc) (hexChar n) = .ok (.word (hexChar n :: acc), []) := by
  interval_cases n <;> rfl

/-- The two digits of a byte spell it. -/
theorem byteNumber_printByte (d : Byte) : byteNumber (printByte d) = .ok d := by
  have hd := d.isLt
  have hnumber : hexNumber 2 (printByte d) = some d.toNat := by
    have hvalue : d.toNat / 16 * 16 + d.toNat % 16 = d.toNat := by omega
    simp [hexNumber, printByte, digitsFrom, hexDigit_hexChar, Nat.mod_lt, hvalue, show d.toNat / 16 < 16 by omega]
  simp [byteNumber, hnumber, show d.toNat < 256 from hd]

/-- The fixed text of a printed `PUTB`, up to the two digits. -/
theorem lexFrom_putb_text (digits : List Char) :
    lexFrom .blank (['P', 'U', 'T', 'B', ' ', '0', 'x'] ++ digits) =
      (lexFrom (.word ['x', '0']) digits).map fun more => .word ['P', 'U', 'T', 'B'] :: more := by
  cases h : lexFrom (.word ['x', '0']) digits <;> simp [lexFrom, lexChar, lexBlank, Except.map, h]

theorem lexFrom_printInstr_putb (d : Byte) :
    lexFrom .blank (printInstr (.putb d)) = .ok [.word ['P', 'U', 'T', 'B'], .word (printByte d)] := by
  have hhigh : d.toNat / 16 < 16 := by omega
  have hlow : d.toNat % 16 < 16 := by omega
  have hdigits : lexFrom (.word ['x', '0']) [hexChar (d.toNat / 16), hexChar (d.toNat % 16)] =
      .ok [.word (printByte d)] := by
    simp only [lexFrom, lexChar_hexChar _ hhigh, lexChar_hexChar _ hlow]
    rfl
  exact (lexFrom_putb_text _).trans (by rw [hdigits]; rfl)

theorem parseTokens_putb (cs : List Char) (d : Byte) (h : byteNumber cs = .ok d) :
    parseTokens [.word ['P', 'U', 'T', 'B'], .word cs] = .ok (some (.op (.putb d), none)) := by
  change (match byteNumber cs with
    | .ok b => annotated (.op (.putb b)) []
    | .error e => .error e) = _
  rw [h]
  rfl

/-- Settles O7: `PUTB` by its tokens, and the other lines are fixed texts. -/
theorem assemblerReadsPrintedOperations : Obligations.AssemblerReadsPrintedOperations := by
  intro i
  cases i with
  | putb d =>
    rw [assembleLine, lexFrom_printInstr_putb]
    exact parseTokens_putb _ d (byteNumber_printByte d)
  | wnop => rfl
  | endb => rfl
  | rnop => rfl
  | pop => rfl
  | rst => rfl

end Sys2Proof.Machine
end

section
/-! Proofs about the unbounded machine `U` of 41_fifo.md R62: an accepted operation of the block is the same step of `U`,
and a step of `U` that needs no room the block lacks is one of the block. -/

namespace Sys2Proof.Machine

/-! ## `U` by its cases -/

theorem UState.next_of_rstDone (u v : UState) (hr : u.rstDone = true) : u.next v = .next v := by
  simp [UState.next, hr]

theorem UState.takeByte_of_first (u : UState) (d : Byte) (hp : u.pend = false) :
    u.takeByte d = { u with loByte := d, pend := true, reply := Reply.accepted } := by
  simp [UState.takeByte, hp]

theorem UState.takeByte_of_second (u : UState) (d : Byte) (hp : u.pend = true) :
    u.takeByte d = { u with q := u.q ++ [decodeSample u.loByte d], pend := false, reply := Reply.accepted } :=
  if_pos hp

theorem UState.takeSample_of_nil (u : UState) (hq : u.q = []) : u.takeSample = u.answerNoSample := by
  simp [UState.takeSample, hq]

theorem UState.takeSample_of_cons (u : UState) {x : Int} {rest : List Int} (hq : u.q = x :: rest) :
    u.takeSample = { u with q := rest, reply := Reply.sample x } := by
  simp [UState.takeSample, hq]

/-- `U` answering `r` in its last step, for comparing states that were reached by different steps. -/
def UState.answer (u : UState) (r : Reply) : UState := { u with reply := r }

/-- No operation of `U` reads the last answer. -/
theorem uexec_answer (i : Instr) (u : UState) (r : Reply) : uexec i (u.answer r) = uexec i u := by
  cases i with
  | putb d =>
    have hbyte : (u.answer r).takeByte d = u.takeByte d := by
      cases hp : u.pend with
      | false => rw [u.takeByte_of_first d hp, (u.answer r).takeByte_of_first d hp]; rfl
      | true => rw [u.takeByte_of_second d hp, (u.answer r).takeByte_of_second d hp]; rfl
    exact congrArg u.next hbyte
  | pop =>
    have hsample : (u.answer r).takeSample = u.takeSample := by
      match hq : u.q with
      | [] => rw [u.takeSample_of_nil hq, (u.answer r).takeSample_of_nil hq]; rfl
      | x :: rest => rw [u.takeSample_of_cons hq, (u.answer r).takeSample_of_cons hq]; rfl
    exact congrArg u.next hsample
  | wnop => rfl
  | endb => rfl
  | rnop => rfl
  | rst => rfl

theorem urunOps_cons {i : Instr} {u v : UState} (ops : List Instr) (h : uexec i u = .next v) :
    urunOps (i :: ops) u = urunOps ops v := by
  simp [urunOps, h]

theorem ualongAnswers_cons {i : Instr} {u v : UState} (ops : List Instr) (h : uexec i u = .next v) :
    ualongAnswers (i :: ops) u = v.reply.read :: ualongAnswers ops v := by
  simp [ualongAnswers, h]

/-- R21 holds of `U` as of the block. -/
theorem rstDone_of_uexec {i : Instr} {u v : UState} (h : uexec i u = .next v) : i = .rst ∨ u.rstDone = true := by
  by_contra hnot
  obtain ⟨hi, hr⟩ := not_or.mp hnot
  have hr : u.rstDone = false := Bool.eq_false_iff.mpr hr
  cases i with
  | rst => exact hi rfl
  | _ => simp [uexec, UState.next, hr] at h

/-! ## One operation -/

/-- A held operation changes nothing but the answer. -/
theorem eq_answer_of_held {i : Instr} {s t : State} (he : exec i s = .next t) (hheld : t.reply.taken = .held) :
    s.pend = true ∧ s.count = s.depth ∧ (∃ d, i = .putb d) ∧ t = s.answer Reply.held := by
  obtain ⟨-, rfl⟩ | ⟨-, h⟩ := exec_cases i s t he
  · cases hheld
  · obtain ⟨-, rfl⟩ | ⟨-, rfl⟩ | ⟨-, rfl⟩ | ⟨-, -, rfl⟩ | ⟨-, -, rfl⟩ | ⟨d, rfl, hp, hc, rfl⟩ | ⟨_, -, -, rfl⟩ |
      ⟨_, -, -, -, rfl⟩ := h
    · cases hheld
    · cases hheld
    · cases hheld
    · cases hheld
    · cases hheld
    · exact ⟨hp, hc, ⟨d, rfl⟩, rfl⟩
    · cases hheld
    · cases hheld

/-- R62 for one operation: accepted by the block, it is the same step of `U`. -/
theorem uexec_unbounded {i : Instr} {s t : State} (h : Consistent s) (he : exec i s = .next t)
    (htaken : t.reply.taken ≠ .held) : uexec i s.unbounded = .next t.unbounded := by
  obtain ⟨rfl, rfl⟩ | ⟨hr, hcase⟩ := exec_cases i s t he
  · rfl
  have hinv := (consistent_iff s hr).mp h
  have hnext : ∀ v, s.unbounded.next v = .next v := fun v => UState.next_of_rstDone _ v hr
  obtain ⟨rfl, rfl⟩ | ⟨rfl, rfl⟩ | ⟨rfl, rfl⟩ | ⟨rfl, hc, rfl⟩ | ⟨rfl, hc, rfl⟩ | ⟨_, -, -, -, rfl⟩ | ⟨d, rfl, hp, rfl⟩ |
    ⟨d, rfl, hp, hc, rfl⟩ := hcase
  · exact hnext _
  · exact hnext _
  · exact hnext _
  · have hq : s.unbounded.q = [] := List.length_eq_zero_iff.mp (s.contents_length.trans hc)
    exact (hnext _).trans (congrArg Host.Outcome.next (UState.takeSample_of_nil _ hq))
  · have hq : s.unbounded.q = s.oldest :: s.dropOldest.contents :=
      s.contents_eq_oldest_cons hinv.rp_lt (Nat.pos_of_ne_zero hc)
    exact (hnext _).trans (congrArg Host.Outcome.next (UState.takeSample_of_cons _ hq))
  · exact absurd rfl htaken
  · exact (hnext _).trans (congrArg Host.Outcome.next (UState.takeByte_of_first _ d hp))
  · have hq := contents_of_push hinv d (hinv.count_le.lt_of_ne hc)
    refine (hnext _).trans (congrArg Host.Outcome.next ((UState.takeByte_of_second _ d hp).trans ?_))
    show ({ s.unbounded with
      q := s.contents ++ [decodeSample s.loByte d], pend := false, reply := Reply.accepted } : UState) = _
    rw [← hq]
    rfl

/-! ## A schedule -/

/-- R62 over a schedule; the held steps are none of `U`, so the two last answers may differ. -/
theorem urunOps_acceptedOps (ops : List Instr) (s t : State) (r : Reply) (h : Consistent s)
    (hrun : runOps ops s = .next t) :
    (∃ r', urunOps (along acceptedOps ops s) (s.unbounded.answer r) = .next (t.unbounded.answer r')) ∧
    ualongAnswers (along acceptedOps ops s) (s.unbounded.answer r) = along acceptedAnswers ops s := by
  induction ops generalizing s r with
  | nil =>
    cases hrun
    exact ⟨⟨r, rfl⟩, rfl⟩
  | cons i ops ih =>
    obtain ⟨v, hv, hrest⟩ := exists_of_runOps_cons hrun
    have hlater := fun r => ih v r (exec_keeps_consistent h hv) hrest
    rw [along_cons _ _ hv, along_cons _ _ hv]
    by_cases hheld : v.reply.taken = .held
    · obtain ⟨-, -, -, rfl⟩ := eq_answer_of_held hv hheld
      exact hlater r
    · have hstep : uexec i (s.unbounded.answer r) = .next v.unbounded :=
        (uexec_answer i _ r).trans (uexec_unbounded h hv hheld)
      have hop : acceptedOps i s v = [i] := if_neg hheld
      have hanswer : acceptedAnswers i s v = [v.reply.read] := if_neg hheld
      obtain ⟨⟨r', hstate⟩, hanswers⟩ := hlater v.reply
      rw [hop, hanswer, List.singleton_append, List.singleton_append, urunOps_cons _ hstep, ualongAnswers_cons _ hstep]
      exact ⟨⟨r', hstate⟩, congrArg (v.reply.read :: ·) hanswers⟩

/-- Settles O49, by `urunOps_acceptedOps`; the last answer is no part of what agrees. -/
theorem blockRunsAreUnboundedRuns : Obligations.BlockRunsAreUnboundedRuns := by
  intro ops s t h hrun
  obtain ⟨⟨r', hstate⟩, hanswers⟩ := urunOps_acceptedOps ops s t s.reply h hrun
  exact ⟨_, hstate, rfl, rfl, rfl, hanswers⟩

/-- Settles O50: the block takes the operation, does not hold it, and then both steps are `uexec_unbounded`. -/
theorem fittingUnboundedStepsAreBlockSteps : Obligations.FittingUnboundedStepsAreBlockSteps := by
  intro i s u h hu hfits
  have hnext : ∃ t, exec i s = .next t := by
    obtain rfl | hr := rstDone_of_uexec hu
    · exact ⟨_, exec_rst s⟩
    · exact exists_exec i s hr
  obtain ⟨t, ht⟩ := hnext
  have htaken : t.reply.taken ≠ .held := by
    intro hheld
    obtain ⟨hp, hc, hd, -⟩ := eq_answer_of_held ht hheld
    exact hfits ⟨hd, hp, s.contents_length.trans hc⟩
  obtain rfl := Host.Outcome.next.inj ((uexec_unbounded h ht htaken).symm.trans hu)
  have hinv := (consistent_iff t (rstDone_of_exec ht)).mp (exec_keeps_consistent h ht)
  obtain ⟨hdepth, -⟩ := exec_keeps_configuration ht
  refine ⟨t, ht, rfl, ?_⟩
  calc t.contents.length = t.count := t.contents_length
    _ ≤ t.depth := hinv.count_le
    _ = s.depth := hdepth

end Sys2Proof.Machine
end

section
/-! Proofs that the unspecified values never show (10_state.md R22): the operations keep `SameButUnspecified`, and what
is seen of a step is a function of what it compares. -/

namespace Sys2Proof.Machine

namespace SameButUnspecified

variable {s t : State}

theorem keepByte (h : SameButUnspecified s t) (d : Byte) : SameButUnspecified (s.keepByte d) (t.keepByte d) := by
  obtain ⟨-, -, hwp, hrp, hcount, hdepth, hr, hentry⟩ := h
  exact ⟨rfl, fun _ => rfl, hwp, hrp, hcount, hdepth, hr, hentry⟩

theorem clearPend (h : SameButUnspecified s t) : SameButUnspecified s.clearPend t.clearPend := by
  obtain ⟨-, -, hwp, hrp, hcount, hdepth, hr, hentry⟩ := h
  exact ⟨rfl, nofun, hwp, hrp, hcount, hdepth, hr, hentry⟩

/-- The window starts and ends at the same indices. -/
theorem windowIndex_eq (h : SameButUnspecified s t) (k : Nat) : s.windowIndex k = t.windowIndex k := by
  obtain ⟨-, -, -, hrp, -, hdepth, -, -⟩ := h
  rw [State.windowIndex, State.windowIndex, hrp, hdepth]

/-- The place a push adds to the window holds what was pushed; the others are compared already. -/
theorem push (h : SameButUnspecified s t) (hs : s.FifoInvariant) (ht : t.FifoInvariant) (x : Int) :
    SameButUnspecified (s.push x) (t.push x) := by
  have hindex := h.windowIndex_eq
  obtain ⟨hpend, hlo, hwp, hrp, hcount, hdepth, hr, hentry⟩ := h
  refine ⟨hpend, hlo, ?_, hrp, congrArg (· + 1) hcount, hdepth, hr, fun k hk => ?_⟩
  · rw [State.push_wp, State.push_wp, State.nextIndex, State.nextIndex, hwp, hdepth]
  · rw [State.windowIndex_push, State.windowIndex_push, s.entry_push hs.mem_wf, t.entry_push ht.mem_wf, ← hindex k, ← hwp]
    split
    · rfl
    · next hne =>
      have hk : k < s.count := by
        have hlast : k ≠ s.count := fun he => hne (by rw [he, hs.wp_eq])
        rw [State.push_count] at *
        omega
      rw [hentry k hk, hindex k]

theorem dropOldest (h : SameButUnspecified s t) : SameButUnspecified s.dropOldest t.dropOldest := by
  obtain ⟨hpend, hlo, hwp, hrp, hcount, hdepth, hr, hentry⟩ := h
  refine ⟨hpend, hlo, hwp, ?_, congrArg (· - 1) hcount, hdepth, hr, fun k hk => ?_⟩
  · rw [State.dropOldest_rp, State.dropOldest_rp, State.nextIndex, State.nextIndex, hrp, hdepth]
  · rw [State.windowIndex_dropOldest, State.windowIndex_dropOldest]
    exact hentry (k + 1) (by rw [State.dropOldest_count] at hk; omega)

/-- The oldest sample is one of the window. -/
theorem oldest_eq (h : SameButUnspecified s t) (hs : s.FifoInvariant) (ht : t.FifoInvariant) (hc : s.count ≠ 0) :
    s.oldest = t.oldest := by
  obtain ⟨-, -, -, -, -, -, -, hentry⟩ := h
  have hzero := hentry 0 (Nat.pos_of_ne_zero hc)
  rw [s.windowIndex_zero hs.rp_lt, t.windowIndex_zero ht.rp_lt] at hzero
  exact congrArg int16 hzero

theorem takeByte (h : SameButUnspecified s t) (hs : s.FifoInvariant) (ht : t.FifoInvariant) (d : Byte) :
    SameButUnspecified (s.takeByte d) (t.takeByte d) ∧
      (s.takeByte d).reply.visible = (t.takeByte d).reply.visible := by
  obtain ⟨hpend, hlo, -, -, hcount, hdepth, -, -⟩ := id h
  obtain ⟨hp, hc, he⟩ | ⟨hp, he⟩ | ⟨hp, hc, he⟩ := s.takeByte_cases d
  · rw [he, t.takeByte_of_held d (hpend ▸ hp) (by rw [← hcount, hc, hdepth])]
    exact ⟨h, rfl⟩
  · rw [he, t.takeByte_of_first d (hpend ▸ hp)]
    exact ⟨h.keepByte d, rfl⟩
  · rw [he, t.takeByte_of_room d (hpend ▸ hp) (by rw [← hcount, ← hdepth]; exact hc), ← hlo hp]
    exact ⟨(h.push hs ht _).clearPend, rfl⟩

theorem takeSample (h : SameButUnspecified s t) (hs : s.FifoInvariant) (ht : t.FifoInvariant) :
    SameButUnspecified s.takeSample t.takeSample ∧ s.takeSample.reply.visible = t.takeSample.reply.visible := by
  obtain ⟨-, -, -, -, hcount, -, -, -⟩ := id h
  obtain ⟨hc, he⟩ | ⟨hc, he⟩ := s.takeSample_cases
  · rw [he, t.takeSample_of_empty (hcount ▸ hc)]
    exact ⟨h, rfl⟩
  · rw [he, t.takeSample_of_nonempty (hcount ▸ hc)]
    exact ⟨h.dropOldest, by rw [State.answer_reply, State.answer_reply, h.oldest_eq hs ht hc]⟩

/-- R22 for one operation. -/
theorem exec (h : SameButUnspecified s t) (hs : Consistent s) (ht : Consistent t) (i : Instr)
    (hi : i = .rst ∨ s.rstDone = true) :
    ∃ u v, Machine.exec i s = .next u ∧ Machine.exec i t = .next v ∧ SameButUnspecified u v ∧
      u.reply.visible = v.reply.visible := by
  obtain ⟨-, -, -, -, -, hdepth, hrst, -⟩ := id h
  by_cases hrstOp : i = .rst
  · subst hrstOp
    exact ⟨_, _, exec_rst s, exec_rst t, .cleared hdepth, rfl⟩
  have hr : s.rstDone = true := hi.resolve_left hrstOp
  have hr' : t.rstDone = true := hrst ▸ hr
  have hinv := (consistent_iff s hr).mp hs
  have hinv' := (consistent_iff t hr').mp ht
  cases i with
  | wnop => exact ⟨_, _, exec_wnop s hr, exec_wnop t hr', h, rfl⟩
  | putb d => exact ⟨_, _, exec_putb d s hr, exec_putb d t hr', h.takeByte hinv hinv' d⟩
  | endb => exact ⟨_, _, exec_endb s hr, exec_endb t hr', h.clearPend, rfl⟩
  | rnop => exact ⟨_, _, exec_rnop s hr, exec_rnop t hr', h, rfl⟩
  | pop => exact ⟨_, _, exec_pop s hr, exec_pop t hr', h.takeSample hinv hinv'⟩
  | rst => exact absurd rfl hrstOp

/-- The status outputs are functions of what is compared. -/
theorem visibleStep_eq {u v : State} (h : SameButUnspecified u v) (hvisible : u.reply.visible = v.reply.visible)
    (i : Instr) : visibleStep i s u = visibleStep i t v := by
  obtain ⟨hpend, -, -, -, hcount, hdepth, -, -⟩ := h
  simp only [visibleStep, State.empty, State.full, State.level, State.pendO, State.wrReady, hvisible, hpend, hcount,
    hdepth]

end SameButUnspecified

theorem along_of_refused {α : Type} (f : Instr → State → State → List α) {i : Instr} {s : State} {r : Refusal}
    (ops : List Instr) (h : exec i s = .refused r) : along f (i :: ops) s = [] := by
  simp [along, h]

/-- Settles O51, by induction on the schedule with `SameButUnspecified.exec`; a refusal ends both runs. -/
theorem unspecifiedValuesNeverShow : Obligations.UnspecifiedValuesNeverShow := by
  intro ops
  induction ops with
  | nil => exact fun _ _ _ _ _ => rfl
  | cons i ops ih =>
    intro s t hs ht h
    by_cases hi : i = .rst ∨ s.rstDone = true
    · obtain ⟨u, v, hu, hv, huv, hvisible⟩ := h.exec hs ht i hi
      rw [along_cons _ _ hu, along_cons _ _ hv, huv.visibleStep_eq hvisible,
        ih u v (exec_keeps_consistent hs hu) (exec_keeps_consistent ht hv) huv]
    · obtain ⟨hrst, hr⟩ := not_or.mp hi
      obtain ⟨-, -, -, -, -, -, hsame, -⟩ := h
      have hr : s.rstDone = false := Bool.eq_false_iff.mpr hr
      rw [along_of_refused _ _ ((exec_eq_refused i s _).mpr ⟨hrst, hr, rfl⟩),
        along_of_refused _ _ ((exec_eq_refused i t _).mpr ⟨hrst, hsame ▸ hr, rfl⟩)]

end Sys2Proof.Machine
end

section
/-! Proofs about the order of two operations: what a sampled clock presents (60_exceptions.md R68), when a held `PUTB` is
lifted (41_fifo.md R60), and a write-port operation and a `POP` in either order (R68). -/

namespace Sys2Proof.Machine

/-! ## The fields of a clock vector -/

theorem rstBit_clockReset (v : BitVec 12) : rstBit (clockReset v) = v.getLsbD 11 := by simp [rstBit, clockReset]

theorem rdReq_clockRead (v : BitVec 12) : rdReq (clockRead v) = v.getLsbD 10 := by simp [rdReq, clockRead]

theorem wrValid_clockWrite (v : BitVec 12) : wrValid (clockWrite v) = v.getLsbD 9 := by simp [wrValid, clockWrite]

/-- The read-port command of a clock is `POP` or absent. -/
theorem clockReadInput_eq (v : BitVec 12) :
    clockReadInput v = if v.getLsbD 10 = true then [.command (.read 1)] else [] := by
  rw [← rdReq_clockRead, clockReadInput]
  obtain hzero | hone := (clockRead v).eq_zero_or_eq_one
  · rw [hzero]
    rfl
  · rw [hone]
    rfl

theorem clockWriteInput_eq (v : BitVec 12) :
    clockWriteInput v = if v.getLsbD 9 = true then [.command (.write (BitVec.ofNat 10 v.toNat))] else [] := by
  rw [← wrValid_clockWrite]
  rfl

theorem State.sampleClock_of_rst (s : State) (v : BitVec 12) (h : v.getLsbD 11 = true) :
    s.sampleClock v = ((s.withInputs (.command (.reset 1) :: s.inputs)).answer (s.turnedAway v)).drawn :=
  if_pos ((rstBit_clockReset v).trans h)

theorem State.sampleClock_of_not_rst (s : State) (v : BitVec 12) (h : v.getLsbD 11 = false) :
    s.sampleClock v = ((s.withInputs (s.clockInputs v ++ s.inputs)).answer Reply.nothing).drawn :=
  if_neg (by rw [rstBit_clockReset, h]; decide)

theorem State.clockInputs_of_read_first (s : State) (v : BitVec 12) (h : s.readIsFirst = true) :
    s.clockInputs v = clockReadInput v ++ clockWriteInput v := if_pos h

theorem State.clockInputs_of_write_first (s : State) (v : BitVec 12) (h : s.readIsFirst = false) :
    s.clockInputs v = clockWriteInput v ++ clockReadInput v := if_neg (by rw [h]; decide)

/-- Settles O53: the commands sampled with `rst = 1` are answered and dropped, and `RST` is all that is left to run. -/
theorem resetWinsTheClock : Obligations.ResetWinsTheClock := by
  intro v rest s hs hrst
  have hstep := step_of_clock s v rest hs
  rw [State.sampleClock_of_rst _ v hrst] at hstep
  refine ⟨_, hstep, rfl, rfl, ?_, ?_, fun hread => ⟨Config.unspecifiedData s.draws, ?_⟩, ?_⟩
  · show (if wrValid (clockWrite v) then Taken.held else .nothing) = .held ↔ _
    rw [wrValid_clockWrite]
    cases v.getLsbD 9 <;> decide
  · show (if wrValid (clockWrite v) then Taken.held else .nothing) ≠ .accepted
    split <;> decide
  · exact if_pos ((rdReq_clockRead v).trans hread)
  · exact step_of_command _ (.reset 1) rest .rst rfl decode_reset_one

/-- Settles O54: the sampled commands in the order of `State.readIsFirst`, which `either` leaves to a draw. -/
theorem clockCommandsFollowArb : Obligations.ClockCommandsFollowArb := by
  intro v rest s hs hrst
  have hstep := step_of_clock s v rest hs
  have hblock := State.sampleClock_block (s.withInputs rest) v
  have hinputs : ((s.withInputs rest).sampleClock v).inputs = (s.withInputs rest).clockInputs v ++ rest := by
    rw [State.sampleClock_of_not_rst _ v hrst]
    rfl
  have hreadFirst (h : (s.withInputs rest).readIsFirst = true) : ((s.withInputs rest).sampleClock v).inputs =
      clockReadInput v ++ (clockWriteInput v ++ rest) := by
    rw [hinputs, State.clockInputs_of_read_first _ v h, List.append_assoc]
  have hwriteFirst (h : (s.withInputs rest).readIsFirst = false) : ((s.withInputs rest).sampleClock v).inputs =
      clockWriteInput v ++ (clockReadInput v ++ rest) := by
    rw [hinputs, State.clockInputs_of_write_first _ v h, List.append_assoc]
  refine ⟨_, _, _, hstep, hblock, clockWriteInput_eq v, clockReadInput_eq v, fun harb => hreadFirst ?_,
    fun harb => hwriteFirst ?_, fun _ => ?_⟩
  · simp [State.readIsFirst, harb]
  · simp [State.readIsFirst, harb]
  · cases hfirst : (s.withInputs rest).readIsFirst with
    | true => exact .inl (hreadFirst hfirst)
    | false => exact .inr (hwriteFirst hfirst)

/-! ## A held `PUTB` -/

theorem Reply.delivered_of_valid {r : Reply} {x : Sample} (h : r.read = some ⟨true, x⟩) : r.delivered = [x] := by
  simp [Reply.delivered, h]

/-- A `PUTB` that finds `wr_ready = 1` is accepted. -/
theorem taken_of_wrReady {d : Byte} {s t : State} (hr : s.rstDone = true) (he : exec (.putb d) s = .next t)
    (hready : s.wrReady = true) : t.reply.taken = .accepted := by
  obtain ⟨u, hu, haccepted, -⟩ := putbIsAcceptedExactlyWhenReady d s hr
  obtain rfl := Host.Outcome.next.inj (he.symm.trans hu)
  exact haccepted.mpr hready

/-- At a full FIFO with a byte held, a `POP` makes the room that the sample of the pair then takes. -/
theorem exec_pop_putb_of_full (d : Byte) {s : State} (h : Consistent s) (hr : s.rstDone = true) (hp : s.pend = true)
    (hc : s.count = s.depth) :
    ∃ t u, exec .pop s = .next t ∧ t.reply.delivered = [s.entry s.rp] ∧ t.wrReady = true ∧
      t.contents = s.contents.tail ∧ exec (.putb d) t = .next u ∧ u.reply.taken = .accepted ∧ u.count = s.depth ∧
      u.contents = t.contents ++ [decodeSample s.loByte d] := by
  have hpos : 0 < s.count := hc ▸ h.1
  obtain ⟨t, x, ht, -, hcontents, hread, hentry, -, hcount, -, -, -, hready, -⟩ := popRemovesTheOldestSample s h hr hpos
  obtain ⟨hlo, hpend, -, -, hdepth, -⟩ := readPortFrame .pop s t rfl ht
  have hroom : t.count < t.depth := by omega
  obtain ⟨u, hu, -, -, -, hmore, -, happend, -, -⟩ :=
    pushAppendsToTheContents d t (exec_keeps_consistent h ht) (rstDone_of_exec ht) (hpend.trans hp) hroom
  refine ⟨t, u, ht, ?_, hready, by rw [hcontents, List.tail_cons], hu,
    taken_of_wrReady (rstDone_of_exec ht) hu hready, by omega, by rw [happend, hlo]⟩
  rw [Reply.delivered_of_valid hread, hentry]

/-- Settles O52: after a `POP` there is room, after an `ENDB` or an `RST` no first byte is held. -/
theorem heldPutbIsLifted : Obligations.HeldPutbIsLifted := by
  intro d i s h hr hready hi
  obtain ⟨hp, hc⟩ := s.wrReady_eq_false.mp hready
  obtain rfl | hi := hi
  · obtain ⟨t, u, ht, hdelivered, htready, -, hu, htaken, -, happend⟩ := exec_pop_putb_of_full d h hr hp hc
    exact ⟨t, u, ht, htready, hu, htaken, fun _ => ⟨hdelivered, happend⟩⟩
  · have hclears : ∃ t, exec i s = .next t ∧ t.pend = false := by
      obtain rfl | rfl := hi
      · exact ⟨_, exec_endb s hr, rfl⟩
      · exact ⟨_, exec_rst s, rfl⟩
    obtain ⟨t, ht, hpend⟩ := hclears
    have htready := t.wrReady_of_not_pend hpend
    obtain ⟨u, hu⟩ := exists_exec (.putb d) t (rstDone_of_exec ht)
    refine ⟨t, u, ht, htready, hu, taken_of_wrReady (rstDone_of_exec ht) hu htready, ?_⟩
    rintro rfl
    obtain hi | hi := hi <;> cases hi

/-! ## Where the order matters -/

/-- Settles O56: the sample just pushed is the only one, so the `POP` after it takes it; the `POP` before it leaves the
block as it was. -/
theorem orderMattersAtAnEmptyFifo : Obligations.OrderMattersAtAnEmptyFifo := by
  intro d s h hr hp hc
  have hroom : s.count < s.depth := hc ▸ h.1
  have hempty : s.contents = [] := List.length_eq_zero_iff.mp (s.contents_length.trans hc)
  constructor
  · obtain ⟨t, ht, -, -, -, hcount, -, happend, -, -⟩ := pushAppendsToTheContents d s h hr hp hroom
    obtain ⟨u, x, hu, -, hcontents, hread, -⟩ :=
      popRemovesTheOldestSample t (exec_keeps_consistent h ht) (rstDone_of_exec ht) (by omega)
    rw [happend, hempty, List.nil_append, List.cons.injEq] at hcontents
    obtain ⟨rfl, hrest⟩ := hcontents
    exact ⟨t, u, ht, hu, hread, hrest.symm⟩
  · have hpop : exec .pop s = .next s.answerNoSample := by rw [exec_pop s hr, s.takeSample_of_empty hc]
    obtain ⟨u, hu, -, -, -, -, -, happend, -, -⟩ :=
      pushAppendsToTheContents d s.answerNoSample (exec_keeps_consistent h hpop) hr hp hroom
    have hsame : s.answerNoSample.contents = [] := hempty
    rw [hsame] at happend
    exact ⟨_, u, _, hpop, rfl, hu, happend⟩

/-- Settles O57: the `POP` first is `exec_pop_putb_of_full`; the byte first is held, and the `POP` finds the block as it
was. -/
theorem orderMattersAtAFullFifo : Obligations.OrderMattersAtAFullFifo := by
  intro d s h hr hp hc
  constructor
  · obtain ⟨t, u, ht, hdelivered, -, htail, hu, htaken, hcount, happend⟩ := exec_pop_putb_of_full d h hr hp hc
    exact ⟨t, u, ht, hdelivered, hu, htaken, hcount, by rw [happend, htail]⟩
  · have hheld : exec (.putb d) s = .next (s.answer Reply.held) := by rw [exec_putb d s hr, s.takeByte_of_held d hp hc]
    obtain ⟨u, x, hu, -, hcontents, hread, hentry, -, -, -, -, -, hready, -⟩ :=
      popRemovesTheOldestSample (s.answer Reply.held) (exec_keeps_consistent h hheld) hr (hc ▸ h.1)
    obtain ⟨-, hpend, -⟩ := readPortFrame .pop _ u rfl hu
    rw [State.contents_answer] at hcontents
    refine ⟨_, u, hheld, rfl, hu, ?_, hpend.trans hp, by rw [hcontents, List.tail_cons], hready⟩
    rw [Reply.delivered_of_valid hread, hentry]
    rfl

/-! ## Where the order does not matter -/

/-- The state with another held byte and `pend`: all that a write-port operation changes of the block, unless it pushes. -/
def State.withCodec (s : State) (lo : Byte) (pend : Bool) : State := { s with loByte := lo, pend := pend }

/-- A write-port operation that completes no pair sets `lo_byte` and `pend` to values that only these two decide. -/
theorem exists_exec_eq_withCodec (i : Instr) (s : State) (hi : i.agent = .producer)
    (hfirst : ∀ d, i = .putb d → s.pend = false) :
    ∃ lo pend, ∀ u : State, u.rstDone = true → u.loByte = s.loByte → u.pend = s.pend →
      exec i u = .next ((u.withCodec lo pend).answer Reply.accepted) := by
  cases i with
  | wnop =>
    refine ⟨s.loByte, s.pend, fun u hr hlo hp => ?_⟩
    rw [exec_wnop u hr, ← hlo, ← hp]
    rfl
  | endb =>
    refine ⟨s.loByte, false, fun u hr hlo _ => ?_⟩
    rw [exec_endb u hr, ← hlo]
    rfl
  | putb d =>
    refine ⟨d, true, fun u hr _ hp => ?_⟩
    rw [exec_putb d u hr, u.takeByte_of_first d (hp.trans (hfirst d rfl))]
    rfl
  | rnop => cases hi
  | pop => cases hi
  | rst => cases hi

/-- A `POP` neither reads nor writes the codec. -/
theorem State.takeSample_withCodec (s : State) (lo : Byte) (pend : Bool) (r : Reply) :
    ((s.withCodec lo pend).answer r).takeSample = s.takeSample.withCodec lo pend := by
  obtain ⟨hc, ht⟩ | ⟨hc, ht⟩ := s.takeSample_cases
  · rw [ht, ((s.withCodec lo pend).answer r).takeSample_of_empty hc]
    rfl
  · rw [ht, ((s.withCodec lo pend).answer r).takeSample_of_nonempty hc]
    rfl

/-- R68 for an operation that pushes nothing: it and a `POP` work on different parts of the block. -/
theorem exec_pop_comm_of_no_push (i : Instr) (s : State) (hi : i.agent = .producer) (hr : s.rstDone = true)
    (hfirst : ∀ d, i = .putb d → s.pend = false) :
    ∃ t u t' u', exec .pop s = .next t ∧ exec i t = .next u ∧ exec i s = .next t' ∧ exec .pop t' = .next u' ∧
      u.block = u'.block ∧ u.draws = u'.draws ∧ t.reply.visible = u'.reply.visible ∧ u.reply = t'.reply := by
  obtain ⟨lo, pend, hwrite⟩ := exists_exec_eq_withCodec i s hi hfirst
  have hpop := exec_pop s hr
  obtain ⟨hlo, hpend, -⟩ := readPortFrame .pop s _ rfl hpop
  have hlast : exec .pop ((s.withCodec lo pend).answer Reply.accepted) = .next (s.takeSample.withCodec lo pend) := by
    rw [exec_pop ((s.withCodec lo pend).answer _) hr, s.takeSample_withCodec]
  exact ⟨_, _, _, _, hpop, hwrite _ (rstDone_of_exec hpop) hlo hpend, hwrite s hr rfl rfl, hlast, rfl, rfl, rfl, rfl⟩

theorem State.push_dropOldest (s : State) (x : Int) (hc : s.count ≠ 0) : s.dropOldest.push x = (s.push x).dropOldest := by
  have hcount : s.count - 1 + 1 = s.count + 1 - 1 := by omega
  simp only [State.push, State.dropOldest, State.nextIndex, hcount]

/-- While something is queued and there is room, a push does not touch the oldest sample. -/
theorem State.oldest_push {s : State} (h : s.FifoInvariant) (x : Int) (hc : s.count ≠ 0) (hroom : s.count < s.depth) :
    (s.push x).oldest = s.oldest := by
  have hne := s.windowIndex_ne_wp h.wp_eq hroom (Nat.pos_of_ne_zero hc)
  rw [s.windowIndex_zero h.rp_lt] at hne
  rw [State.oldest, State.push_rp, s.entry_push h.mem_wf, if_neg hne, State.oldest]

/-- R68 for a push with room, while something is queued: it and a `POP` work on different entries. -/
theorem exec_pop_comm_of_push (d : Byte) (s : State) (h : s.FifoInvariant) (hr : s.rstDone = true) (hp : s.pend = true)
    (hc : s.count ≠ 0) (hroom : s.count < s.depth) :
    ∃ t u t' u', exec .pop s = .next t ∧ exec (.putb d) t = .next u ∧ exec (.putb d) s = .next t' ∧
      exec .pop t' = .next u' ∧ u.block = u'.block ∧ u.draws = u'.draws ∧ t.reply.visible = u'.reply.visible ∧
      u.reply = t'.reply := by
  have hpop : exec .pop s = .next (s.dropOldest.answer (Reply.sample s.oldest)) := by
    rw [exec_pop s hr, s.takeSample_of_nonempty hc]
  have hpush : exec (.putb d) s = .next ((s.push (decodeSample s.loByte d)).clearPend.answer Reply.accepted) := by
    rw [exec_putb d s hr, s.takeByte_of_room d hp hroom.ne]
  have hless : s.count - 1 ≠ s.depth := by omega
  have hpush' : exec (.putb d) (s.dropOldest.answer (Reply.sample s.oldest)) =
      .next ((s.dropOldest.push (decodeSample s.loByte d)).clearPend.answer Reply.accepted) := by
    rw [exec_putb d (s.dropOldest.answer _) hr, (s.dropOldest.answer _).takeByte_of_room d hp hless]
    rfl
  have hpop' : exec .pop ((s.push (decodeSample s.loByte d)).clearPend.answer Reply.accepted) =
      .next ((s.push (decodeSample s.loByte d)).dropOldest.clearPend.answer
        (Reply.sample (s.push (decodeSample s.loByte d)).oldest)) := by
    rw [exec_pop ((s.push _).clearPend.answer _) hr,
      ((s.push _).clearPend.answer _).takeSample_of_nonempty (Nat.succ_ne_zero s.count)]
    rfl
  refine ⟨_, _, _, _, hpop, hpush', hpush, hpop', ?_, rfl, ?_, rfl⟩
  · exact congrArg (fun u => u.clearPend.block) (s.push_dropOldest (decodeSample s.loByte d) hc)
  · exact congrArg (fun x => (Reply.sample x).visible) (State.oldest_push h _ hc hroom).symm

/-- Settles O55: what is left when a second byte meets neither an empty nor a full FIFO. -/
theorem writeAndPopCommuteElsewhere : Obligations.WriteAndPopCommuteElsewhere := by
  intro i s hi h hr hnot
  by_cases hpush : ∃ d, i = .putb d ∧ s.pend = true
  · obtain ⟨d, rfl, hp⟩ := hpush
    have hinv := (consistent_iff s hr).mp h
    have hc : s.count ≠ 0 := fun hc => hnot ⟨⟨d, rfl⟩, hp, .inl hc⟩
    have hfull : s.count ≠ s.depth := fun hc => hnot ⟨⟨d, rfl⟩, hp, .inr hc⟩
    exact exec_pop_comm_of_push d s hinv hr hp hc (hinv.count_le.lt_of_ne hfull)
  · exact exec_pop_comm_of_no_push i s hi hr fun d hd => Bool.eq_false_iff.mpr fun hp => hpush ⟨d, hd, hp⟩

end Sys2Proof.Machine
end

section
/-! Proofs about a `LINE` gone through among the steps of the other agents (30_encoding.md R44, 40_codec.md R52): no byte
is lost or taken twice, and a `POP` after each turn is enough for it to end (70_reset_and_hazards.md R77). -/

namespace Sys2Proof.Machine

/-! ## One turn -/

theorem Source.runFrom_cons (src : Source) {turn : Turn} {todo : List Instr} {i : Instr} {s t : State}
    (turns : List Turn) (hop : turn.operation todo = some i) (he : exec i s = .next t) :
    src.runFrom (turn :: turns) todo s = src.runFrom turns (src.left turn todo t.reply) t := by
  simp [Source.runFrom, hop, he]

theorem Source.scheduleFrom_cons (src : Source) {turn : Turn} {todo : List Instr} {i : Instr} {s t : State}
    (turns : List Turn) (hop : turn.operation todo = some i) (he : exec i s = .next t) :
    src.scheduleFrom (turn :: turns) todo s = i :: src.scheduleFrom turns (src.left turn todo t.reply) t := by
  simp [Source.scheduleFrom, hop, he]

/-- A turn without an operation passes. -/
theorem Source.runFrom_pass (src : Source) {turn : Turn} {todo : List Instr} (turns : List Turn) (s : State)
    (hop : turn.operation todo = none) :
    src.runFrom (turn :: turns) todo s = src.runFrom turns todo s ∧
      src.scheduleFrom (turn :: turns) todo s = src.scheduleFrom turns todo s := by
  simp [Source.runFrom, Source.scheduleFrom, hop]

theorem Source.left_of_held (src : Source) (todo : List Instr) {r : Reply} (h : r.taken = .held) :
    src.left .own todo r = todo := if_pos h

theorem Source.left_line_of_taken (bytes : List Byte) (todo : List Instr) {r : Reply} (h : r.taken ≠ .held) :
    (Source.line bytes).left .own todo r = todo.tail := if_neg h

/-- Nothing comes into what is left of a line. -/
theorem Source.mem_of_mem_left (src : Source) {turn : Turn} {todo : List Instr} {r : Reply} {i : Instr}
    (h : i ∈ src.left turn todo r) : i ∈ todo := by
  cases turn with
  | other j => exact h
  | own =>
    by_cases hheld : r.taken = .held
    · rwa [src.left_of_held todo hheld] at h
    · have hleft : src.left .own todo r = [] ∨ src.left .own todo r = todo.tail := by
        cases src with
        | fill n =>
          simp only [Source.left, hheld, if_false]
          exact ite_eq_or_eq _ _ _
        | _ => exact .inr (if_neg hheld)
      obtain hnil | htail := hleft
      · rw [hnil] at h
        cases h
      · exact List.mem_of_mem_tail (htail ▸ h)

/-- The schedule of a line is made of its own operations and those of the other agents' turns. -/
theorem Source.mem_scheduleFrom (src : Source) {turns : List Turn} {todo : List Instr} {s : State} {i : Instr}
    (h : i ∈ src.scheduleFrom turns todo s) : i ∈ todo ∨ Turn.other i ∈ turns := by
  induction turns generalizing todo s with
  | nil => cases h
  | cons turn turns ih =>
    cases hop : turn.operation todo with
    | none =>
      obtain ⟨-, hpass⟩ := src.runFrom_pass turns s hop
      rw [hpass] at h
      exact (ih h).imp_right (List.mem_cons_of_mem turn)
    | some j =>
      have hj : j ∈ todo ∨ Turn.other j ∈ turn :: turns := by
        cases turn with
        | own => exact .inl (List.mem_of_mem_head? hop)
        | other k => exact .inr (Option.some.inj hop ▸ List.mem_cons_self)
      have hlist : i = j ∨ ∃ todo' t, (∀ k ∈ todo', k ∈ todo) ∧ i ∈ src.scheduleFrom turns todo' t := by
        cases he : exec j s with
        | next t =>
          rw [src.scheduleFrom_cons turns hop he] at h
          exact (List.mem_cons.mp h).imp_right fun hlater => ⟨_, t, fun _ => src.mem_of_mem_left, hlater⟩
        | fault f => exact absurd he (exec_ne_fault j s f)
        | refused r =>
          simp only [Source.scheduleFrom, hop, he] at h
          exact .inl (List.mem_singleton.mp h)
      obtain rfl | ⟨todo', t, hsub, hlater⟩ := hlist
      · exact hj
      · exact (ih hlater).imp (hsub i) (List.mem_cons_of_mem turn)

/-! ## What is left of a `LINE` -/

/-- Of a `LINE` the bytes `rest` are still to be accepted, or it is done, its `ENDB` accepted. -/
def LineLeft (todo : List Instr) (rest : List Byte) (s : State) : Prop :=
  todo = lineOps rest ∨ (todo = [] ∧ rest = [] ∧ s.pend = false)

/-- What a step amid a `LINE` does: the bytes it takes come off those that are left, and with the held byte put before
them they decode to what it pushes and what is still to come (R52). -/
def LineStep (i : Instr) (s t : State) (rest rest' : List Byte) : Prop :=
  bytesTaken i s t ++ rest' = rest ∧
  samplesPushed i s t ++ decodeBuffer (t.heldByte ++ rest') = decodeBuffer (s.heldByte ++ rest)

/-- A step but `ENDB` and `RST` is such a step for any bytes that may follow. -/
theorem lineStep_of_stream {i : Instr} {s t : State} (h : Consistent s) (hrst : i ≠ .rst) (hendb : i ≠ .endb)
    (he : exec i s = .next t) (rest' : List Byte) : LineStep i s t (bytesTaken i s t ++ rest') rest' :=
  ⟨rfl, pushed_append_decodeBuffer h hrst hendb he rest'⟩

/-- The other agents' steps, and `WNOP`, take no byte and leave `pend`. -/
theorem line_other_turn {j : Instr} {s t : State} {todo : List Instr} {rest : List Byte} (h : Consistent s)
    (hj : j.agent = .consumer ∨ j = .wnop) (hleft : LineLeft todo rest s) (he : exec j s = .next t) :
    LineLeft todo rest t ∧ LineStep j s t rest rest := by
  have hframe : t.pend = s.pend ∧ bytesTaken j s t = [] ∧ j ≠ .rst ∧ j ≠ .endb := by
    obtain hj | rfl := hj
    · obtain ⟨-, hpend, -⟩ := readPortFrame j s t hj he
      cases j with
      | rnop => exact ⟨hpend, rfl, nofun, nofun⟩
      | pop => exact ⟨hpend, rfl, nofun, nofun⟩
      | _ => cases hj
    · obtain ⟨-, -, -, -, -, -, -, -, -, -, hpend⟩ := writePortFrame .wnop s t rfl h he
      exact ⟨hpend rfl, rfl, nofun, nofun⟩
  obtain ⟨hpend, hnone, hrst, hendb⟩ := hframe
  have hstep := lineStep_of_stream h hrst hendb he rest
  rw [hnone, List.nil_append] at hstep
  exact ⟨hleft.imp_right fun ⟨htodo, hrest, hp⟩ => ⟨htodo, hrest, hpend.trans hp⟩, hstep⟩

/-- A `PUTB` that is not held is accepted. -/
theorem taken_of_not_held {d : Byte} {s t : State} (he : exec (.putb d) s = .next t) (h : t.reply.taken ≠ .held) :
    t.reply.taken = .accepted := by
  obtain ⟨hr, -⟩ := (afterFirstReset_eq_next _ _ _).mp he
  obtain ⟨u, hu, haccepted, hheld, -⟩ := putbIsAcceptedExactlyWhenReady d s hr
  obtain rfl := Host.Outcome.next.inj (he.symm.trans hu)
  exact haccepted.mpr (eq_true_of_ne_false fun hready => h (hheld.mpr hready))

/-- The line's own step: a byte that is held or taken, or the `ENDB`. -/
theorem line_own_turn (bytes : List Byte) {i : Instr} {s t : State} {todo : List Instr} {rest : List Byte}
    (h : Consistent s) (hleft : LineLeft todo rest s) (hop : Turn.own.operation todo = some i)
    (he : exec i s = .next t) :
    ∃ rest', LineLeft ((Source.line bytes).left .own todo t.reply) rest' t ∧ LineStep i s t rest rest' := by
  obtain rfl | ⟨rfl, -, -⟩ := hleft
  · cases rest with
    | nil =>
      obtain rfl := Option.some.inj hop
      obtain ⟨-, rfl⟩ := (afterFirstReset_eq_next _ _ _).mp he
      refine ⟨[], .inr ⟨rfl, rfl, rfl⟩, rfl, ?_⟩
      rw [List.append_nil, List.append_nil, decodeBuffer_heldByte, decodeBuffer_heldByte, List.append_nil]
      exact samplesPushed_of_same rfl
    | cons d rest =>
      obtain rfl := Option.some.inj hop
      by_cases hheld : t.reply.taken = .held
      · have hstep := lineStep_of_stream (i := .putb d) h nofun nofun he (d :: rest)
        have hnone : bytesTaken (.putb d) s t = [] := if_neg (by rw [hheld]; decide)
        rw [hnone, List.nil_append] at hstep
        exact ⟨d :: rest, .inl (Source.left_of_held _ _ hheld), hstep⟩
      · have hstep := lineStep_of_stream (i := .putb d) h nofun nofun he rest
        have htaken : bytesTaken (.putb d) s t = [d] := if_pos (taken_of_not_held he hheld)
        rw [htaken] at hstep
        exact ⟨rest, .inl (Source.left_line_of_taken bytes _ hheld), hstep⟩
  · cases hop

/-- R44 and R52 over any turns: the bytes taken and those left are the line's, and what is pushed, with the held byte and
the bytes left, is what the line decodes to. -/
theorem line_runFrom (bytes : List Byte) (turns : List Turn) (todo : List Instr) (rest : List Byte) (s : State)
    (h : Consistent s) (hr : s.rstDone = true)
    (hturns : ∀ i, Turn.other i ∈ turns → i.agent = .consumer ∨ i = .wnop) (hleft : LineLeft todo rest s) :
    ∃ t left rest', (Source.line bytes).runFrom turns todo s = .next (t, left) ∧ LineLeft left rest' t ∧
      along bytesTaken ((Source.line bytes).scheduleFrom turns todo s) s ++ rest' = rest ∧
      along samplesPushed ((Source.line bytes).scheduleFrom turns todo s) s ++ decodeBuffer (t.heldByte ++ rest') =
        decodeBuffer (s.heldByte ++ rest) := by
  induction turns generalizing todo rest s with
  | nil => exact ⟨s, todo, rest, rfl, hleft, rfl, rfl⟩
  | cons turn turns ih =>
    have hlater : ∀ i, Turn.other i ∈ turns → i.agent = .consumer ∨ i = .wnop :=
      fun i hi => hturns i (List.mem_cons_of_mem turn hi)
    cases hop : turn.operation todo with
    | none =>
      obtain ⟨hrun, hschedule⟩ := (Source.line bytes).runFrom_pass turns s hop
      rw [hrun, hschedule]
      exact ih todo rest s h hr hlater hleft
    | some i =>
      obtain ⟨t, he⟩ := exists_exec i s hr
      have hturn : ∃ rest', LineLeft ((Source.line bytes).left turn todo t.reply) rest' t ∧ LineStep i s t rest rest' := by
        cases turn with
        | own => exact line_own_turn bytes h hleft hop he
        | other j =>
          obtain rfl := Option.some.inj hop
          exact ⟨rest, line_other_turn h (hturns j List.mem_cons_self) hleft he⟩
      obtain ⟨rest', hleft', htaken, hpushed⟩ := hturn
      obtain ⟨u, left, rest'', hrun, hend, htakens, hpusheds⟩ :=
        ih _ rest' t (exec_keeps_consistent h he) (rstDone_of_exec he) hlater hleft'
      rw [Source.runFrom_cons _ turns hop he, Source.scheduleFrom_cons _ turns hop he, along_cons _ _ he,
        along_cons _ _ he]
      exact ⟨u, left, rest'', hrun, hend, by rw [List.append_assoc, htakens, htaken],
        by rw [List.append_assoc, hpusheds, hpushed]⟩

/-- Settles O58: `line_runFrom` from the start of the line, and R59 for the schedule it makes. -/
theorem lineIsPresentedUntilAccepted : Obligations.LineIsPresentedUntilAccepted := by
  intro bytes turns s h hr hp hturns
  obtain ⟨t, left, rest, hrun, hleft, htaken, hpushed⟩ :=
    line_runFrom bytes turns (lineOps bytes) bytes s h hr hturns (.inl rfl)
  have hschedule := Source.runOps_scheduleFrom _ turns (lineOps bytes) left s t hrun
  have hrst : .rst ∉ (Source.line bytes).scheduleFrom turns (lineOps bytes) s := fun hmem => by
    obtain hown | hother := Source.mem_scheduleFrom _ hmem
    · exact rst_notMem_lineOps bytes hown
    · obtain hagent | hwnop := hturns _ hother
      · cases hagent
      · cases hwnop
  have hqueue := popsReturnThePushedSamplesInOrder _ s t h hr hrst hschedule
  refine ⟨t, left, _, rest, _, hrun, rfl, hschedule, rfl, htaken,
    hleft.imp_right fun ⟨hdone, hrest, _⟩ => ⟨hdone, hrest⟩, hqueue, ?_⟩
  rintro rfl
  obtain hnil | ⟨-, rfl, hpend⟩ := hleft
  · exact absurd hnil.symm (List.append_ne_nil_of_right_ne_nil _ (List.cons_ne_nil _ _))
  · rw [t.heldByte_of_not_pend hpend, s.heldByte_of_not_pend hp, List.nil_append, decodeBuffer_nil, List.append_nil,
      List.nil_append] at hpushed
    exact ⟨hpend, hpushed⟩

/-! ## How long a `LINE` waits -/

/-- What a `POP` leaves is not full. -/
theorem not_full_of_exec_pop {s t : State} (h : Consistent s) (he : exec .pop s = .next t) : t.count ≠ t.depth := by
  obtain ⟨hr, ⟨hi | hc, rfl⟩ | ⟨-, hc, rfl⟩⟩ := exec_consumer_cases rfl he
  · cases hi
  · have hdepth := h.1
    show s.count ≠ s.depth
    omega
  · have hle := ((consistent_iff s hr).mp h).count_le
    show s.count - 1 ≠ s.depth
    omega

/-- One turn of the producer and a `POP`: one operation less is left, unless it was held at a full FIFO, and the FIFO is
full no more. -/
theorem exists_line_round (bytes : List Byte) (todo : List Instr) (s : State) (h : Consistent s)
    (hr : s.rstDone = true) :
    ∃ todo' t, todo'.length ≤ todo.length ∧ (s.count ≠ s.depth → todo'.length ≤ todo.length - 1) ∧ Consistent t ∧
      t.rstDone = true ∧ t.count ≠ t.depth ∧
      ∀ turns, (Source.line bytes).runFrom (.own :: .other .pop :: turns) todo s =
        (Source.line bytes).runFrom turns todo' t := by
  cases todo with
  | nil =>
    have hpop := exec_pop s hr
    exact ⟨[], _, le_rfl, fun _ => le_rfl, exec_keeps_consistent h hpop, rstDone_of_exec hpop,
      not_full_of_exec_pop h hpop, fun turns => Source.runFrom_other _ turns [] .pop _ _ hpop⟩
  | cons i todo =>
    obtain ⟨u, hu⟩ := exists_exec i s hr
    have hpop := exec_pop u (rstDone_of_exec hu)
    have hcons := exec_keeps_consistent h hu
    obtain ⟨hle, hless⟩ : ((Source.line bytes).left .own (i :: todo) u.reply).length ≤ todo.length + 1 ∧
        (s.count ≠ s.depth → ((Source.line bytes).left .own (i :: todo) u.reply).length ≤ todo.length) := by
      by_cases hheld : u.reply.taken = .held
      · obtain ⟨-, hc, -⟩ := eq_answer_of_held hu hheld
        rw [Source.left_of_held _ _ hheld]
        exact ⟨le_rfl, fun hroom => absurd hc hroom⟩
      · rw [Source.left_line_of_taken bytes _ hheld]
        exact ⟨Nat.le_succ _, fun _ => le_rfl⟩
    refine ⟨_, _, hle, hless, exec_keeps_consistent hcons hpop, rstDone_of_exec hpop,
      not_full_of_exec_pop hcons hpop, fun turns => ?_⟩
    rw [Source.runFrom_cons _ _ rfl hu, Source.runFrom_other _ turns _ .pop _ _ hpop]

/-- With a `POP` after each turn the FIFO is never found full again, so each turn takes an operation. -/
theorem line_done_of_not_full (bytes : List Byte) (n : Nat) (todo : List Instr) (s : State) (h : Consistent s)
    (hr : s.rstDone = true) (hroom : s.count ≠ s.depth) (hn : todo.length ≤ n) :
    ∃ t, (Source.line bytes).runFrom (List.replicate n [Turn.own, Turn.other .pop]).flatten todo s = .next (t, []) := by
  induction n generalizing todo s with
  | zero =>
    obtain rfl := List.length_eq_zero_iff.mp (Nat.le_zero.mp hn)
    exact ⟨s, rfl⟩
  | succ n ih =>
    obtain ⟨todo', t, -, hless, ht, hrt, hroomt, hrun⟩ := exists_line_round bytes todo s h hr
    obtain ⟨u, hu⟩ := ih todo' t ht hrt hroomt (by have := hless hroom; omega)
    exact ⟨u, (hrun _).trans hu⟩

/-- With nothing between the producer's turns a held byte is presented again in each. -/
theorem line_held (bytes : List Byte) (d : Byte) (todo : List Instr) (n : Nat) (s : State) (hr : s.rstDone = true)
    (hready : s.wrReady = false) :
    ∃ t, (Source.line bytes).runFrom (List.replicate n Turn.own) (.putb d :: todo) s = .next (t, .putb d :: todo) ∧
      t.block = s.block := by
  induction n generalizing s with
  | zero => exact ⟨s, rfl, rfl⟩
  | succ n ih =>
    obtain ⟨u, hu, -, hheld, hblock, -⟩ := putbIsAcceptedExactlyWhenReady d s hr
    obtain ⟨-, -, -, rfl⟩ := eq_answer_of_held hu (hheld.mpr hready)
    obtain ⟨t, ht, hsame⟩ := ih (s.answer Reply.held) hr hready
    exact ⟨t, (Source.runFrom_held _ _ _ _ _ _ hu rfl).trans ht, hsame⟩

/-- Settles O59: one turn may be lost to a hold, and from then on each takes an operation; with no `POP` none does. -/
theorem heldLineWaitsForThePop : Obligations.HeldLineWaitsForThePop := by
  refine ⟨fun bytes n s h hr hn => ?_, fun d bytes n s hr hready => line_held _ d _ n s hr hready⟩
  obtain ⟨m, rfl⟩ : ∃ m, n = m + 1 := ⟨n - 1, by omega⟩
  obtain ⟨todo', t, hle, -, ht, hrt, hroom, hrun⟩ := exists_line_round bytes (lineOps bytes) s h hr
  have hlength : (lineOps bytes).length = bytes.length + 1 := by simp [lineOps, putsOps]
  obtain ⟨u, hu⟩ := line_done_of_not_full bytes m todo' t ht hrt hroom (by omega)
  exact ⟨u, (hrun _).trans hu⟩

end Sys2Proof.Machine
end
